-- ==== Sys2Proof/Word.lean ====
section
/-! DEFINITION. The value types of the CHIP-8 core (00_scope.md R12, 10_state.md R20, R21; 30_encoding.md R71, R73). -/

namespace Sys2Proof

/-- An 8-bit value: a general register, a memory byte, a timer, the immediate `nn` (R21, R30, R50, R73). -/
abbrev Byte := BitVec 8

/-- A 16-bit value: an instruction word (R70); and, at this hardware's widths, `pc`, `I` and a stack entry (R25, R27, R29). -/
abbrev Word := BitVec 16

/-- The 12-bit address immediate `nnn` (R73). -/
abbrev Addr := BitVec 12

/-- The index of a general register V0..VF: the 4-bit field of an instruction (R21, R74). -/
abbrev Reg := Fin 16

/-- The index of a key 0x0..0xF (R31). -/
abbrev Key := Fin 16

/-- VF, the flag register, is V[15] (00_scope.md R13, 10_state.md R22). -/
abbrev VF : Reg := 15

end Sys2Proof
end

