-- ==== Sys2Proof/Syntax.lean ====
section
/-! DEFINITION. The 34 instructions of the core, one constructor for each row of spec/opcode_table.json, in its order
(30_encoding.md R76, R80). The operands are typed as R73 and R74 give them: a register index is one of 16, `nn` is a byte,
`nnn` a 12-bit address, `n` a count 0..15. -/

namespace Sys2Proof

inductive Instr where
  /-- 00E0 `CLS` (R191) -/
  | cls
  /-- 00EE `RET` (R101) -/
  | ret
  /-- 1NNN `JP nnn` (R102) -/
  | jp (nnn : Addr)
  /-- 2NNN `CALL nnn` (R103) -/
  | call (nnn : Addr)
  /-- 3XNN `SE Vx, nn` (R104) -/
  | seByte (x : Reg) (nn : Byte)
  /-- 4XNN `SNE Vx, nn` (R105) -/
  | sneByte (x : Reg) (nn : Byte)
  /-- 5XY0 `SE Vx, Vy` (R106) -/
  | seReg (x y : Reg)
  /-- 6XNN `LD Vx, nn` (R131) -/
  | ldByte (x : Reg) (nn : Byte)
  /-- 7XNN `ADD Vx, nn` (R132) -/
  | addByte (x : Reg) (nn : Byte)
  /-- 8XY0 `LD Vx, Vy` (R133) -/
  | ldReg (x y : Reg)
  /-- 8XY1 `OR Vx, Vy` (R134) -/
  | orReg (x y : Reg)
  /-- 8XY2 `AND Vx, Vy` (R135) -/
  | andReg (x y : Reg)
  /-- 8XY3 `XOR Vx, Vy` (R136) -/
  | xorReg (x y : Reg)
  /-- 8XY4 `ADD Vx, Vy` (R137) -/
  | addReg (x y : Reg)
  /-- 8XY5 `SUB Vx, Vy` (R138) -/
  | subReg (x y : Reg)
  /-- 8XY6 `SHR Vx, Vy` (R139) -/
  | shrReg (x y : Reg)
  /-- 8XY7 `SUBN Vx, Vy` (R140) -/
  | subnReg (x y : Reg)
  /-- 8XYE `SHL Vx, Vy` (R141) -/
  | shlReg (x y : Reg)
  /-- 9XY0 `SNE Vx, Vy` (R107) -/
  | sneReg (x y : Reg)
  /-- ANNN `LD I, nnn` (R171) -/
  | ldI (nnn : Addr)
  /-- BNNN `JP V0, nnn` (R108) -/
  | jpV0 (nnn : Addr)
  /-- CXNN `RND Vx, nn` (R142) -/
  | rnd (x : Reg) (nn : Byte)
  /-- DXYN `DRW Vx, Vy, n` (R192) -/
  | drw (x y : Reg) (n : Fin 16)
  /-- EX9E `SKP Vx` (R212) -/
  | skp (x : Reg)
  /-- EXA1 `SKNP Vx` (R213) -/
  | sknp (x : Reg)
  /-- FX07 `LD Vx, DT` (R214) -/
  | ldVxDt (x : Reg)
  /-- FX0A `LD Vx, K` (R215) -/
  | ldVxK (x : Reg)
  /-- FX15 `LD DT, Vx` (R216) -/
  | ldDtVx (x : Reg)
  /-- FX18 `LD ST, Vx` (R217) -/
  | ldStVx (x : Reg)
  /-- FX1E `ADD I, Vx` (R172) -/
  | addI (x : Reg)
  /-- FX29 `LD F, Vx` (R194) -/
  | ldF (x : Reg)
  /-- FX33 `LD B, Vx` (R173) -/
  | ldB (x : Reg)
  /-- FX55 `LD [I], Vx`: store V0..Vx (R175) -/
  | stRegs (x : Reg)
  /-- FX65 `LD Vx, [I]`: load V0..Vx (R176) -/
  | ldRegs (x : Reg)
deriving DecidableEq, Repr

/-! ### The assembly spelling (R82: spelling only, no rule of meaning depends on it) -/

/-- The hexadecimal digit of a 4-bit value. -/
def hexDigit (k : Nat) : Char := "0123456789ABCDEF".toList.getD k '0'

/-- `digits` hexadecimal digits of `k` with the prefix 0x. -/
def hexWord (digits k : Nat) : String :=
  "0x" ++ String.ofList ((List.range digits).reverse.map fun d => hexDigit (k / 16 ^ d % 16))

/-- `V0`..`VF`. -/
def Reg.asm (x : Reg) : String := "V" ++ String.ofList [hexDigit x.val]

/-- The instruction as R82 writes it, destination first. -/
def Instr.asm : Instr → String
  | .cls => "CLS"
  | .ret => "RET"
  | .jp nnn => "JP " ++ hexWord 3 nnn.toNat
  | .call nnn => "CALL " ++ hexWord 3 nnn.toNat
  | .seByte x nn => "SE " ++ Reg.asm x ++ ", " ++ hexWord 2 nn.toNat
  | .sneByte x nn => "SNE " ++ Reg.asm x ++ ", " ++ hexWord 2 nn.toNat
  | .seReg x y => "SE " ++ Reg.asm x ++ ", " ++ Reg.asm y
  | .ldByte x nn => "LD " ++ Reg.asm x ++ ", " ++ hexWord 2 nn.toNat
  | .addByte x nn => "ADD " ++ Reg.asm x ++ ", " ++ hexWord 2 nn.toNat
  | .ldReg x y => "LD " ++ Reg.asm x ++ ", " ++ Reg.asm y
  | .orReg x y => "OR " ++ Reg.asm x ++ ", " ++ Reg.asm y
  | .andReg x y => "AND " ++ Reg.asm x ++ ", " ++ Reg.asm y
  | .xorReg x y => "XOR " ++ Reg.asm x ++ ", " ++ Reg.asm y
  | .addReg x y => "ADD " ++ Reg.asm x ++ ", " ++ Reg.asm y
  | .subReg x y => "SUB " ++ Reg.asm x ++ ", " ++ Reg.asm y
  | .shrReg x y => "SHR " ++ Reg.asm x ++ ", " ++ Reg.asm y
  | .subnReg x y => "SUBN " ++ Reg.asm x ++ ", " ++ Reg.asm y
  | .shlReg x y => "SHL " ++ Reg.asm x ++ ", " ++ Reg.asm y
  | .sneReg x y => "SNE " ++ Reg.asm x ++ ", " ++ Reg.asm y
  | .ldI nnn => "LD I, " ++ hexWord 3 nnn.toNat
  | .jpV0 nnn => "JP V0, " ++ hexWord 3 nnn.toNat
  | .rnd x nn => "RND " ++ Reg.asm x ++ ", " ++ hexWord 2 nn.toNat
  | .drw x y n => "DRW " ++ Reg.asm x ++ ", " ++ Reg.asm y ++ ", " ++ hexWord 1 n.val
  | .skp x => "SKP " ++ Reg.asm x
  | .sknp x => "SKNP " ++ Reg.asm x
  | .ldVxDt x => "LD " ++ Reg.asm x ++ ", DT"
  | .ldVxK x => "LD " ++ Reg.asm x ++ ", K"
  | .ldDtVx x => "LD DT, " ++ Reg.asm x
  | .ldStVx x => "LD ST, " ++ Reg.asm x
  | .addI x => "ADD I, " ++ Reg.asm x
  | .ldF x => "LD F, " ++ Reg.asm x
  | .ldB x => "LD B, " ++ Reg.asm x
  | .stRegs x => "LD [I], " ++ Reg.asm x
  | .ldRegs x => "LD " ++ Reg.asm x ++ ", [I]"

end Sys2Proof
end

