-- ==== Sys2Proof/WellFormed.lean ====
section
/-! DEFINITION. Well-formed instructions: the ranges 30_encoding.md R73 and R74 give the operands, as checks on numbers. The
types of `Instr` already carry them and no other rule restricts an operand ("any of the 16 values is legal in each field"),
so every `Instr` is well-formed (`Instr.wf_all`, Laws/WellFormed.lean); the checks refuse numbers that fit no field. -/

namespace Sys2Proof.WellFormed

/-- A register index x or y, or a last-register index: 0..15 (R74). -/
def regOk (k : Nat) : Bool := k < 16

/-- A byte immediate nn: 0..255 (R73). -/
def byteOk (k : Nat) : Bool := k < 256

/-- An address immediate nnn: 0..0xFFF (R73). -/
def addrOk (k : Nat) : Bool := k < 4096

/-- A row count n: 0..15 (R73). -/
def countOk (k : Nat) : Bool := k < 16

end Sys2Proof.WellFormed

namespace Sys2Proof

open WellFormed in
/-- Every operand of the instruction is in the range its field has. -/
def Instr.wf : Instr → Bool
  | .cls | .ret => true
  | .jp nnn | .call nnn | .ldI nnn | .jpV0 nnn => addrOk nnn.toNat
  | .seByte x nn | .sneByte x nn | .ldByte x nn | .addByte x nn | .rnd x nn => regOk x.val && byteOk nn.toNat
  | .seReg x y | .sneReg x y | .ldReg x y | .orReg x y | .andReg x y | .xorReg x y => regOk x.val && regOk y.val
  | .addReg x y | .subReg x y | .shrReg x y | .subnReg x y | .shlReg x y => regOk x.val && regOk y.val
  | .drw x y n => regOk x.val && regOk y.val && countOk n.val
  | .skp x | .sknp x | .ldVxDt x | .ldVxK x | .ldDtVx x | .ldStVx x => regOk x.val
  | .addI x | .ldF x | .ldB x | .stRegs x | .ldRegs x => regOk x.val

end Sys2Proof
end

