-- ==== Sys2Proof/Config.lean ====
section
/-! DEFINITION. The parameters of 00_scope.md R7 (10_state.md R35: not state): the structure `Params`, a configuration, with the
value this hardware has for each as its default, and `hw`, this hardware's. The OPEN parameters (`keyIndexPolicy`, `randByte` and
the rates) have no body, so a proof about the model holds for every value of them. -/

namespace Sys2Proof.Config

/-- The register whose value 8XY6 and 8XYE shift (R7, R139). -/
inductive ShiftSource where
  | vy
  | vx
deriving DecidableEq, Repr, Inhabited

/-- What EX9E and EXA1 make of a Vx above 0xF (44_timer_key.md R211). -/
inductive KeyIndexPolicy where
  | notPressed
  | maskLowNibble
deriving DecidableEq, Repr, Inhabited

/-- `KEY_INDEX_POLICY` is OPEN (R7, D13): no body, so a claim holds under both policies (log 4). -/
opaque keyIndexPolicy : KeyIndexPolicy

/-- The byte the host supplies with a STEP that names none, by how many such bytes came before: free values with no
law between them (00_scope.md R15, D20; log 2). -/
opaque randByte : Nat → Byte

/-- `FONT`: the 80 glyph bytes, five a digit, top row first (20_memory.md R58; log 6). -/
def font : List Byte :=
  [0xF0, 0x90, 0x90, 0x90, 0xF0] ++ [0x20, 0x60, 0x20, 0x20, 0x70] ++
  [0xF0, 0x10, 0xF0, 0x80, 0xF0] ++ [0xF0, 0x10, 0xF0, 0x10, 0xF0] ++
  [0x90, 0x90, 0xF0, 0x10, 0x10] ++ [0xF0, 0x80, 0xF0, 0x10, 0xF0] ++
  [0xF0, 0x80, 0xF0, 0x90, 0xF0] ++ [0xF0, 0x10, 0x20, 0x40, 0x40] ++
  [0xF0, 0x90, 0xF0, 0x90, 0xF0] ++ [0xF0, 0x90, 0xF0, 0x10, 0xF0] ++
  [0xF0, 0x90, 0xF0, 0x90, 0x90] ++ [0xE0, 0x90, 0xE0, 0x90, 0xE0] ++
  [0xF0, 0x80, 0x80, 0x80, 0xF0] ++ [0xE0, 0x90, 0x90, 0x90, 0xE0] ++
  [0xF0, 0x80, 0xF0, 0x80, 0xF0] ++ [0xF0, 0x80, 0xF0, 0x80, 0x80]

/-- `TICK_RATE` is OPEN, the host's (R7, D21; log 8): no rule reads it (60_exceptions.md R244). -/
opaque tickRate : Nat

/-- `STEP_RATE` is OPEN, the host's (R7, D21; log 8): no rule reads it (60_exceptions.md R244). -/
opaque stepRate : Nat

/-- `OP_LATENCY` is OPEN (R7, D1; log 8): no rule reads it (70_reset_and_hazards.md R275). -/
opaque opLatency : Nat

/-! ### A configuration -/

/-- A configuration: each parameter of R7, with the value this hardware takes as its default. The state of the machine, its
operations and its meanings take one (`State p`); a bare `State`, `exec` and `step` are those of `hw` (log 16). The last fields
say what a configuration must meet for the rules to make sense (log 16): a 4-bit field names a register and a key, pixels have
somewhere to wrap to, and a register is wide enough for every value the rules write to it (R12). -/
structure Params where
  /-- `MEM_SIZE`: addresses 0x000-0xFFF (R50) -/
  memSize : Nat := 4096
  /-- `NUM_V`: general registers (10_state.md R21) -/
  numV : Nat := 16
  /-- `PC_WIDTH` (10_state.md R25) -/
  pcWidth : Nat := 16
  /-- `I_WIDTH` (10_state.md R27) -/
  iWidth : Nat := 16
  /-- `STACK_DEPTH` (10_state.md R29; 92_eei_decisions.md D4; log 7) -/
  stackDepth : Nat := 16
  /-- `STACK_ENTRY_WIDTH` (10_state.md R29) -/
  stackEntryWidth : Nat := 16
  /-- `FB_W`: columns of the framebuffer (10_state.md R31) -/
  fbW : Nat := 64
  /-- `FB_H`: rows of the framebuffer (10_state.md R31) -/
  fbH : Nat := 32
  /-- `NUM_KEYS` (10_state.md R31) -/
  numKeys : Nat := 16
  /-- `FONT_BASE`: the address of glyph 0 (20_memory.md R58) -/
  fontBase : Nat := 0x050
  /-- `FONT` -/
  font : List Byte := Config.font
  /-- `PROGRAM_BASE`: the reset pc and the address LOAD writes from (70_reset_and_hazards.md R265) -/
  programBase : Nat := 0x200
  /-- `SHIFT_SOURCE` (41_alu.md R139; D3; log 5) -/
  shiftSource : ShiftSource := .vy
  /-- `KEY_INDEX_POLICY` -/
  keyIndexPolicy : KeyIndexPolicy := Config.keyIndexPolicy
  /-- `RAND`: the byte of the k-th STEP for which the host names none -/
  rand : Nat → Byte := Config.randByte
  /-- `TICK_RATE` -/
  tickRate : Nat := Config.tickRate
  /-- `STEP_RATE` -/
  stepRate : Nat := Config.stepRate
  /-- `OP_LATENCY` -/
  opLatency : Nat := Config.opLatency
  /-- Every register a 4-bit field can name is there (30_encoding.md R74). -/
  numV_ge : 16 ≤ numV := by decide
  /-- Every key a low nibble can name is there (44_timer_key.md R211), and a byte holds the key FX0A stores (R215). -/
  numKeys_range : 16 ≤ numKeys ∧ numKeys ≤ 256 := by decide
  /-- There is a column. -/
  fbW_pos : 0 < fbW := by decide
  /-- There is a row. -/
  fbH_pos : 0 < fbH := by decide
  /-- The program region and the font lie in memory. -/
  regions_fit : 0 < memSize ∧ programBase ≤ memSize ∧ fontBase + font.length ≤ memSize := by decide
  /-- `pc` holds the targets of BNNN and a skip's target after the last fetchable word (R26). -/
  pc_fits : 0x10FE < 2 ^ pcWidth ∧ memSize + 2 < 2 ^ pcWidth := by decide
  /-- `I` holds what ANNN, FX1E and FX29 write (R28). -/
  I_fits : 0xFFF < 2 ^ iWidth ∧ memSize ≤ 2 ^ iWidth ∧ fontBase + 5 * 255 < 2 ^ iWidth := by decide
  /-- A stack entry holds an advanced pc (R26). -/
  stack_fits : memSize < 2 ^ stackEntryWidth := by decide

/-- This hardware's configuration. -/
abbrev hw : Params := {}

@[simp] theorem hw_memSize : hw.memSize = 4096 := rfl
@[simp] theorem hw_numV : hw.numV = 16 := rfl
@[simp] theorem hw_pcWidth : hw.pcWidth = 16 := rfl
@[simp] theorem hw_iWidth : hw.iWidth = 16 := rfl
@[simp] theorem hw_stackDepth : hw.stackDepth = 16 := rfl
@[simp] theorem hw_stackEntryWidth : hw.stackEntryWidth = 16 := rfl
@[simp] theorem hw_fbW : hw.fbW = 64 := rfl
@[simp] theorem hw_fbH : hw.fbH = 32 := rfl
@[simp] theorem hw_numKeys : hw.numKeys = 16 := rfl
@[simp] theorem hw_fontBase : hw.fontBase = 0x050 := rfl
@[simp] theorem hw_font : hw.font = font := rfl
@[simp] theorem hw_programBase : hw.programBase = 0x200 := rfl
@[simp] theorem hw_shiftSource : hw.shiftSource = .vy := rfl
@[simp] theorem hw_keyIndexPolicy : hw.keyIndexPolicy = keyIndexPolicy := rfl
@[simp] theorem hw_rand : hw.rand = randByte := rfl

end Sys2Proof.Config
end

