-- ==== Sys2Proof/Machine/State.lean ====
section
/-! DEFINITION. The state of the core as plain data (10_state.md R20-R37), the results of operations, the host's operations
(00_scope.md R10), the reasons a step could stop, and the state after reset. -/

namespace Sys2Proof.Machine

/-- `memory` (R50) in canonical form: (address, byte) pairs, addresses strictly rising and below 0x1000, no entry equal to
what an unlisted address reads as (`Memory.wf`, Machine/Memory.lean; log 15). -/
abbrev Memory := List Host.Cell

/-- `fb`: `FB_H` rows of `FB_W` one-bit pixels, 32 of 64 here; `fb[row][col]` (R31). -/
abbrev Framebuffer (p : Config.Params := Config.hw) := Vector (Vector Bool p.fbW) p.fbH

/-- The fault kinds a STEP reports (60_exceptions.md R231); `addr` is `fault_addr`, the exact address above 0xFFF (R232). -/
inductive FaultKind where
  | unknownOpcode
  | stackUnderflow
  | stackOverflow
  | memoryBoundsError (addr : Nat)
deriving DecidableEq, Repr

/-- `step_result` (R36, R230): OK without information, or a fault with `fault_pc` and `fault_op` (R232). -/
inductive StepResult (p : Config.Params := Config.hw) where
  | ok
  | fault (kind : FaultKind) (faultPc : BitVec p.pcWidth) (faultOp : Word)
deriving DecidableEq, Repr

/-- `load_result` (R36, 70_reset_and_hazards.md R265). -/
inductive LoadResult where
  | ok
  | loadTooLong
deriving DecidableEq, Repr

/-- The operations the host issues (00_scope.md R10). -/
inductive Operation (p : Config.Params := Config.hw) where
  /-- RESET (R260) -/
  | reset
  /-- LOAD(rom) (R265) -/
  | load (rom : List Byte)
  /-- STEP, with the `rand_byte` it is supplied with (R84) -/
  | step (randByte : Byte)
  /-- TICK (R243) -/
  | tick
  /-- SET_KEY(index, pressed) (R245) -/
  | setKey (index : Fin p.numKeys) (pressed : Bool)
deriving DecidableEq, Repr

/-- The state of the core under a configuration, which is this hardware's where none is given (00_scope.md R7; log 16). The first
nine fields are the architectural state of R20, the next two the interface registers of R36; the last three are the model's own
(log 1, log 2). -/
structure State (p : Config.Params := Config.hw) where
  /-- `memory` (R50) -/
  mem : Memory
  /-- `pc` (R25) -/
  pc : BitVec p.pcWidth
  /-- the index register `I` (R27) -/
  I : BitVec p.iWidth
  /-- the general registers V0..VF (R21) -/
  v : Vector Byte p.numV
  /-- the return-address stack, newest entry last (R13, R29) -/
  stack : List (BitVec p.stackEntryWidth)
  /-- `DT` (R30) -/
  dt : Byte
  /-- `ST` (R30) -/
  st : Byte
  /-- the framebuffer (R31) -/
  fb : Framebuffer p
  /-- the key states (R31) -/
  keypad : Vector Bool p.numKeys
  /-- `step_result` (R36) -/
  stepResult : StepResult p
  /-- `load_result` (R36) -/
  loadResult : LoadResult
  /-- model: the `rand_byte` input of the STEP being performed (R15, R87) -/
  randByte : Byte
  /-- model: how many free random bytes have been drawn -/
  draws : Nat
  /-- model: the operations the host has asked for and the core has not performed, oldest first -/
  pending : List (Operation p)
deriving DecidableEq, Repr

/-- Reasons a step stops the machine. There is none: every fault of this hardware is reported in `step_result` and the core
goes on from the state 60_exceptions.md R233 gives (R234), so a faulting STEP is a next state (log 3). Nothing raises a
`Fault`. Safe: nothing stops where the hardware goes on. -/
inductive Fault
deriving DecidableEq, Repr

/-- Reasons the model gives an instruction no meaning. -/
inductive Refusal where
  /-- Raised only by an arm of `exec` whose instruction has no meaning yet. No arm is such an arm. Safe: the run stops. -/
  | notModelled (mnemonic : String)
deriving DecidableEq, Repr

/-- The state RESET leaves under a configuration (10_state.md R37): memory is its reset contents (nothing listed), pc
`PROGRAM_BASE`, all else zero, empty, not pressed or OK. The model's own fields: no byte latched, none drawn, no operation
pending (log 1, log 2). -/
def State.resetOf (p : Config.Params) : State p where
  mem := []
  pc := BitVec.ofNat p.pcWidth p.programBase
  I := 0
  v := Vector.replicate p.numV 0
  stack := []
  dt := 0
  st := 0
  fb := Vector.replicate p.fbH (Vector.replicate p.fbW false)
  keypad := Vector.replicate p.numKeys false
  stepResult := .ok
  loadResult := .ok
  randByte := 0
  draws := 0
  pending := []

/-- This hardware's state after reset. -/
def State.reset : State := State.resetOf Config.hw

end Sys2Proof.Machine
end

