-- ==== Sys2Proof/Machine/Memory.lean ====
section
/-! DEFINITION. Memory as a canonical list of bytes: what an unlisted address reads as, reading and writing one byte, and
the canonical form (20_memory.md R50-R53, R58; 10_state.md R37). -/

namespace Sys2Proof.Machine

/-- What an unlisted address reads as: the reset contents, the font at 0x050-0x09F and 0x00 elsewhere (R37, R58). -/
def Memory.unlisted (a : Nat) (p : Config.Params := Config.hw) : Byte :=
  if p.fontBase ≤ a then p.font.getD (a - p.fontBase) 0 else 0

/-- The byte at an address (the bound is checked by `State.memRead`). -/
def Memory.read : Memory → Nat → (p : Config.Params := Config.hw) → Byte
  | [], a, p => Memory.unlisted a p
  | (k, b) :: rest, a, p => if k = a then b else Memory.read rest a p

/-- Put `v` in front of `rest` at `a`, unless `a` reads as `v` when it is not listed. -/
def Memory.consUnlessDefault (a : Nat) (v : Byte) (rest : Memory) (p : Config.Params := Config.hw) : Memory :=
  if v = Memory.unlisted a p then rest else (a, v) :: rest

/-- Write one byte, keeping the canonical form. -/
def Memory.write : Memory → Nat → Byte → (p : Config.Params := Config.hw) → Memory
  | [], a, v, p => Memory.consUnlessDefault a v [] p
  | (k, b) :: rest, a, v, p =>
    if a < k then Memory.consUnlessDefault a v ((k, b) :: rest) p
    else if a = k then Memory.consUnlessDefault a v rest p
    else (k, b) :: Memory.write rest a v p

/-- Canonical from address `lo` on: addresses at least `lo`, strictly rising, below 0x1000, no entry equal to what its
address reads as unlisted. -/
def Memory.wfFrom : Nat → Memory → (p : Config.Params := Config.hw) → Bool
  | _, [], _ => true
  | lo, (k, b) :: rest, p =>
    decide (lo ≤ k) && decide (k < p.memSize) && decide (b ≠ Memory.unlisted k p) && Memory.wfFrom (k + 1) rest p

/-- The canonical form. -/
def Memory.wf (m : Memory) (p : Config.Params := Config.hw) : Bool := Memory.wfFrom 0 m p

end Sys2Proof.Machine
end

