-- ==== Sys2Proof/Machine/Ops.lean ====
section
/-! DEFINITION. The named operations over registers, memory, stack and framebuffer that the meanings share, how a STEP
completes, and how it faults (00_scope.md R13-R15; 20_memory.md R52, R53, R55; 60_exceptions.md R230-R235). -/

namespace Sys2Proof.Machine

/-- What a step of the core answers. -/
abbrev Result (p : Config.Params := Config.hw) := Host.Outcome (State p) Fault Refusal

variable {p : Config.Params}

/-! ### One update per field -/

def State.setMem (s : State p) (m : Memory) : State p := { s with mem := m }
def State.setPc (s : State p) (a : BitVec p.pcWidth) : State p := { s with pc := a }
def State.setI (s : State p) (a : BitVec p.iWidth) : State p := { s with I := a }
def State.setV (s : State p) (v : Vector Byte p.numV) : State p := { s with v := v }
def State.setStack (s : State p) (l : List (BitVec p.stackEntryWidth)) : State p := { s with stack := l }
def State.setDt (s : State p) (b : Byte) : State p := { s with dt := b }
def State.setSt (s : State p) (b : Byte) : State p := { s with st := b }
def State.setFb (s : State p) (f : Framebuffer p) : State p := { s with fb := f }
def State.setKeypad (s : State p) (k : Vector Bool p.numKeys) : State p := { s with keypad := k }
def State.setStepResult (s : State p) (r : StepResult p) : State p := { s with stepResult := r }
def State.setLoadResult (s : State p) (r : LoadResult) : State p := { s with loadResult := r }
def State.setRandByte (s : State p) (b : Byte) : State p := { s with randByte := b }
def State.setDraws (s : State p) (n : Nat) : State p := { s with draws := n }
def State.setPending (s : State p) (l : List (Operation p)) : State p := { s with pending := l }

/-! ### Registers (R13, R21) -/

/-- The register a 4-bit field names is there (30_encoding.md R74). -/
theorem reg_lt_numV (x : Reg) : x.val < p.numV := Nat.lt_of_lt_of_le x.isLt p.numV_ge

/-- `V[x]`. -/
def State.reg (s : State p) (x : Reg) : Byte := s.v[x.val]'(reg_lt_numV x)

/-- `V[x] <- b`. -/
def State.setReg (s : State p) (x : Reg) (b : Byte) : State p := s.setV (s.v.set x.val b (reg_lt_numV x))

/-- The 16 values of a register field in ascending order. -/
def allIndexes : List (Fin 16) := [0, 1, 2, 3, 4, 5, 6, 7, 8, 9, 10, 11, 12, 13, 14, 15]

/-- The block V0..Vx of FX55 and FX65, ascending (R74). -/
def regsUpTo (x : Reg) : List Reg := allIndexes.filter (· ≤ x)

/-! ### Completing and faulting -/

/-- A STEP that completes: `step_result <- OK` (30_encoding.md R84). -/
def done (s : State p) : Result p := .next (s.setStepResult .ok)

/-- `raise K(info)` (R15), the one way a STEP faults: `step_result` records the kind with `fault_pc` and `fault_op` (R232),
every write made so far is kept, nothing is saved and control goes nowhere (R233, R237); the core goes on (R234). There is
no return from a fault (R237, R238). -/
def raiseAt (k : FaultKind) (faultPc : BitVec p.pcWidth) (faultOp : Word) (s : State p) : Result p :=
  .next (s.setStepResult (.fault k faultPc faultOp))

/-- `pc_f`, the address the STEP fetched from, while an instruction runs: the advance has added 2 (R25, R84). -/
def State.fetchPc (s : State p) : BitVec p.pcWidth := s.pc - 2

/-- The raise of instruction `i`, whose word is the `fault_op` and which has not written `pc` yet. -/
def raise (k : FaultKind) (i : Instr) (s : State p) : Result p := raiseAt k s.fetchPc (encode i) s

/-! ### Memory accesses -/

/-- The byte at an address, for claims. -/
def State.byteAt (s : State p) (a : Nat) : Byte := s.mem.read a p

/-- `MemRead(addr, 1)`: the byte, or none where it raises MemoryBoundsError(addr): from `MEM_SIZE` on (R52). -/
def State.memRead (s : State p) (a : Nat) : Option Byte :=
  if p.memSize ≤ a then none else some (s.byteAt a)

/-- `MemWrite(addr, 1, v)`: the state written, or none where it raises MemoryBoundsError(addr) (R53). -/
def State.memWrite (s : State p) (a : Nat) (v : Byte) : Option (State p) :=
  if p.memSize ≤ a then none else some (s.setMem (s.mem.write a v p))

/-- `Fetch(pc)`: the big-endian word at pc and pc + 1, or none where it raises MemoryBoundsError(pc):
where pc + 1 is past the memory, so pc above 0xFFE here (R54, R55). -/
def State.fetch (s : State p) : Option Word :=
  if p.memSize ≤ s.pc.toNat + 1 then none
  else some (wordOfBytes (s.byteAt s.pc.toNat) (s.byteAt (s.pc.toNat + 1)))

/-- The MemWrites of an instruction in order; the first that fails ends them with its address, and what was written
before it stays (42_index_memory.md R170). -/
def storeAll : List (Nat × Byte) → State p → State p × Option Nat
  | [], s => (s, none)
  | (a, v) :: rest, s =>
    match s.memWrite a v with
    | none => (s, some a)
    | some s' => storeAll rest s'

/-- The loads `V[k] <- MemRead(a, 1)` of an instruction in order; the first that fails ends them with its address, and what
was loaded before it stays (R170). -/
def loadAll : List (Nat × Reg) → State p → State p × Option Nat
  | [], s => (s, none)
  | (a, k) :: rest, s =>
    match s.memRead a with
    | none => (s, some a)
    | some b => loadAll rest (s.setReg k b)

/-- How instruction `i` ends after its memory accesses: completed, or at the address that failed (R170, R233). -/
def finish (i : Instr) : State p × Option Nat → Result p
  | (s, none) => done s
  | (s, some a) => raise (.memoryBoundsError a) i s

/-! ### Program counter and stack -/

/-- The STEP's advance: `pc <- pc + 2` (R84). -/
def State.advance (s : State p) : State p := s.setPc (s.pc + 2)

/-- A skip when `c` holds: `pc <- pc + 2` once more (40_control.md R100). -/
def State.skipIf (s : State p) (c : Bool) : State p := if c then s.setPc (s.pc + 2) else s

/-- `push(a)`, or none on a stack that holds `STACK_DEPTH` entries (R29, R103). -/
def State.push (s : State p) (a : BitVec p.stackEntryWidth) : Option (State p) :=
  if p.stackDepth ≤ s.stack.length then none else some (s.setStack (s.stack ++ [a]))

/-- `pop()`: the last entry and the state without it, or none on an empty stack (R29, R101). -/
def State.pop (s : State p) : Option (BitVec p.stackEntryWidth × State p) :=
  match s.stack.getLast? with
  | none => none
  | some a => some (a, s.setStack s.stack.dropLast)

/-! ### Framebuffer -/

/-- `fb[row][col]`. -/
def pixel (f : Framebuffer p) (row : Fin p.fbH) (col : Fin p.fbW) : Bool := f[row][col]

/-- `fb[row][col] <- b`. -/
def setPixel (f : Framebuffer p) (row : Fin p.fbH) (col : Fin p.fbW) (b : Bool) : Framebuffer p :=
  f.set row.val (f[row].set col.val b)

/-- All pixels 0. -/
def blankFb (p : Config.Params := Config.hw) : Framebuffer p := Vector.replicate p.fbH (Vector.replicate p.fbW false)

/-- The column of bit `b` of a row placed at `cx`: coordinates wrap (43_display.md R190). -/
def spriteCol (cx b : Nat) (p : Config.Params := Config.hw) : Fin p.fbW := ⟨(cx + b) % p.fbW, Nat.mod_lt _ p.fbW_pos⟩

/-- The row of row byte `r` of a sprite placed at `cy` (R190). -/
def spriteRow (cy r : Nat) (p : Config.Params := Config.hw) : Fin p.fbH := ⟨(cy + r) % p.fbH, Nat.mod_lt _ p.fbH_pos⟩

/-- XOR a 1 bit into a pixel; the collision detector sees a pixel that was 1 (R192). The pair is the framebuffer and
whether any pixel has collided. -/
def plot (row : Fin p.fbH) (col : Fin p.fbW) (d : Framebuffer p × Bool) : Framebuffer p × Bool :=
  (setPixel d.1 row col (!pixel d.1 row col), d.2 || pixel d.1 row col)

/-- Bits `bs` of a row byte in order, bit 0 the most significant (R190, R192). -/
def drawBits (byte : Byte) (cx : Nat) (row : Fin p.fbH) : List Nat → Framebuffer p × Bool → Framebuffer p × Bool
  | [], d => d
  | b :: bs, d =>
    drawBits byte cx row bs (if byte.getLsbD (7 - b) then plot row (spriteCol cx b p) d else d)

/-- Rows `rs` of a sprite in order: read the row byte, then draw its eight bits; the first row address past the memory ends the
draw with that address, and the rows before it stay drawn (R192). -/
def drawRows (s : State p) (base cx cy : Nat) :
    List Nat → Framebuffer p × Bool → (Framebuffer p × Bool) × Option Nat
  | [], d => (d, none)
  | r :: rs, d =>
    match s.memRead (base + r) with
    | none => (d, some (base + r))
    | some byte => drawRows s base cx cy rs (drawBits byte cx (spriteRow cy r p) (List.range 8) d)

end Sys2Proof.Machine
end

