-- ==== Sys2Proof/Machine/Flags.lean ====
section
/-! DEFINITION. The flag values that go to VF, each 0 or 1, and how an instruction writes its result and its flag
(10_state.md R22, R23). -/

namespace Sys2Proof.Machine

variable {p : Config.Params}

/-- A flag as a register value: 0 or 1 (R22). -/
def flagByte (b : Bool) : Byte := if b then 1 else 0

/-- Carry out of bit 7: the exact sum passes 255 (41_alu.md R137). -/
def carry (a b : Byte) : Bool := a.toNat + b.toNat > 255

/-- No borrow in `a - b` (R138, and R140 with the operands exchanged). -/
def noBorrow (a b : Byte) : Bool := a.toNat ≥ b.toNat

/-- The bit a right shift by one shifts out (R139). -/
def shiftOutRight (s : Byte) : Bool := s.getLsbD 0

/-- The bit a left shift by one shifts out (R141). -/
def shiftOutLeft (s : Byte) : Bool := s.getLsbD 7

/-- The exact sum `I + Vx` passes the last address (42_index_memory.md R172). -/
def indexOverflow (i : BitVec p.iWidth) (v : Byte) : Bool := i.toNat + v.toNat ≥ p.memSize

/-- `VF <- flag`. -/
def State.setFlag (s : State p) (b : Bool) : State p := s.setReg VF (flagByte b)

/-- The result to Vx, then the flag as the last write to VF (R23). -/
def State.setRegFlag (s : State p) (x : Reg) (r : Byte) (b : Bool) : State p := (s.setReg x r).setFlag b

end Sys2Proof.Machine
end

