-- ==== Sys2Proof/Machine/Operands.lean ====
section
/-! DEFINITION. The operand forms that are more than a register or an immediate: the zero-extended address, the shifted
register, the effective address, the font address, the decimal digits and the key test. -/

namespace Sys2Proof.Machine

variable {p : Config.Params}

/-- `zext_w(nnn)`, to the width of the register it is written to, 16 here (30_encoding.md R73). -/
def zextAddr (nnn : Addr) (w : Nat := 16) : BitVec w := nnn.setWidth w

/-- `nnn + V0`, exact in the bits of `pc` (40_control.md R108). -/
def offsetAddr (nnn : Addr) (v0 : Byte) (w : Nat := 16) : BitVec w := zextAddr nnn w + v0.setWidth w

/-- The value 8XY6 and 8XYE shift, by the parameter `SHIFT_SOURCE` (41_alu.md R139). -/
def shiftOperand (src : Config.ShiftSource) (x y : Reg) (s : State p) : Byte :=
  match src with
  | .vy => s.reg y
  | .vx => s.reg x

/-- The effective address `I + k`, an exact integer that is never reduced (20_memory.md R52, R59). -/
def State.effAddr (s : State p) (k : Nat) : Nat := s.I.toNat + k

/-- `FONT_BASE + 5 * Vx`, not masked to a digit (43_display.md R194). -/
def fontAddr (vx : Byte) (p : Config.Params := Config.hw) : BitVec p.iWidth := BitVec.ofNat p.iWidth (p.fontBase + 5 * vx.toNat)

/-- The hundreds digit `v div 100` (42_index_memory.md R173). -/
def bcdHundreds (v : Byte) : Byte := BitVec.ofNat 8 (v.toNat / 100)

/-- The tens digit `(v div 10) mod 10` (R173). -/
def bcdTens (v : Byte) : Byte := BitVec.ofNat 8 (v.toNat / 10 % 10)

/-- The ones digit `v mod 10` (R173). -/
def bcdOnes (v : Byte) : Byte := BitVec.ofNat 8 (v.toNat % 10)

/-- The key of a value, by its low nibble. -/
def lowNibbleKey (v : Byte) (p : Config.Params := Config.hw) : Fin p.numKeys := ⟨v.toNat % 16, Nat.lt_of_lt_of_le (Nat.mod_lt _ (by decide)) p.numKeys_range.1⟩

/-- `KeyPressed(v)` under a key index policy; the highest key index is 0xF here (44_timer_key.md R211). -/
def keyPressed (policy : Config.KeyIndexPolicy) (keypad : Vector Bool p.numKeys) (v : Byte) : Bool :=
  if h : v.toNat < p.numKeys then keypad[v.toNat]
  else
    match policy with
    | .notPressed => false
    | .maskLowNibble => keypad[lowNibbleKey v p]

/-- The lowest pressed key, or none (44_timer_key.md R215). -/
def lowestPressed {n : Nat} (keypad : Vector Bool n) : Option (Fin n) := (List.finRange n).find? fun k => keypad[k]

end Sys2Proof.Machine
end

