-- ==== Sys2Proof/Machine/Alu.lean ====
section
/-! DEFINITION. Register moves, arithmetic, shifts and the random byte (41_alu.md). Operands are read before any register is
written (R130). -/

namespace Sys2Proof.Machine

variable {p : Config.Params}

/-- 6XNN (R131). -/
def execLdByte (x : Reg) (nn : Byte) (s : State p) : Result p := done (s.setReg x nn)

/-- 7XNN: no flag (R132). -/
def execAddByte (x : Reg) (nn : Byte) (s : State p) : Result p := done (s.setReg x (s.reg x + nn))

/-- 8XY0 (R133). -/
def execLdReg (x y : Reg) (s : State p) : Result p := done (s.setReg x (s.reg y))

/-- 8XY1: no flag (R134). -/
def execOrReg (x y : Reg) (s : State p) : Result p := done (s.setReg x (s.reg x ||| s.reg y))

/-- 8XY2: no flag (R135). -/
def execAndReg (x y : Reg) (s : State p) : Result p := done (s.setReg x (s.reg x &&& s.reg y))

/-- 8XY3: no flag (R136). -/
def execXorReg (x y : Reg) (s : State p) : Result p := done (s.setReg x (s.reg x ^^^ s.reg y))

/-- 8XY4 (R137). -/
def execAddReg (x y : Reg) (s : State p) : Result p :=
  done (s.setRegFlag x (s.reg x + s.reg y) (carry (s.reg x) (s.reg y)))

/-- 8XY5 (R138). -/
def execSubReg (x y : Reg) (s : State p) : Result p :=
  done (s.setRegFlag x (s.reg x - s.reg y) (noBorrow (s.reg x) (s.reg y)))

/-- 8XY6 for a given `SHIFT_SOURCE` (R139). -/
def shiftRight (src : Config.ShiftSource) (x y : Reg) (s : State p) : State p :=
  s.setRegFlag x (shiftOperand src x y s >>> 1) (shiftOutRight (shiftOperand src x y s))

/-- 8XY6 (R139). -/
def execShrReg (x y : Reg) (s : State p) : Result p :=
  done (shiftRight p.shiftSource x y s)

/-- 8XY7 (R140). -/
def execSubnReg (x y : Reg) (s : State p) : Result p :=
  done (s.setRegFlag x (s.reg y - s.reg x) (noBorrow (s.reg y) (s.reg x)))

/-- 8XYE for a given `SHIFT_SOURCE` (R141). -/
def shiftLeft (src : Config.ShiftSource) (x y : Reg) (s : State p) : State p :=
  s.setRegFlag x (shiftOperand src x y s <<< 1) (shiftOutLeft (shiftOperand src x y s))

/-- 8XYE (R141). -/
def execShlReg (x y : Reg) (s : State p) : Result p :=
  done (shiftLeft p.shiftSource x y s)

/-- CXNN: the byte supplied with this STEP, masked (R142). -/
def execRnd (x : Reg) (nn : Byte) (s : State p) : Result p := done (s.setReg x (s.randByte &&& nn))

end Sys2Proof.Machine
end

