-- ==== Sys2Proof/Machine/Control.lean ====
section
/-! DEFINITION. Control transfer, skips and the call stack (40_control.md). Every meaning runs after the STEP's advance, so
`s.pc` is the fetch address plus 2. -/

namespace Sys2Proof.Machine

variable {p : Config.Params}

/-- 00EE (R101). -/
def execRet (s : State p) : Result p :=
  match s.pop with
  | none => raise .stackUnderflow .ret s
  | some (a, s') => done (s'.setPc (a.setWidth p.pcWidth))

/-- 1NNN (R102). -/
def execJp (nnn : Addr) (s : State p) : Result p := done (s.setPc (zextAddr nnn p.pcWidth))

/-- 2NNN: the pushed value is the advanced pc (R103). -/
def execCall (nnn : Addr) (s : State p) : Result p :=
  match s.push (s.pc.setWidth p.stackEntryWidth) with
  | none => raise .stackOverflow (.call nnn) s
  | some s' => done (s'.setPc (zextAddr nnn p.pcWidth))

/-- 3XNN (R104). -/
def execSeByte (x : Reg) (nn : Byte) (s : State p) : Result p := done (s.skipIf (s.reg x == nn))

/-- 4XNN (R105). -/
def execSneByte (x : Reg) (nn : Byte) (s : State p) : Result p := done (s.skipIf (s.reg x != nn))

/-- 5XY0 (R106). -/
def execSeReg (x y : Reg) (s : State p) : Result p := done (s.skipIf (s.reg x == s.reg y))

/-- 9XY0 (R107). -/
def execSneReg (x y : Reg) (s : State p) : Result p := done (s.skipIf (s.reg x != s.reg y))

/-- BNNN: the offset register is always V0 (R108). -/
def execJpV0 (nnn : Addr) (s : State p) : Result p := done (s.setPc (offsetAddr nnn (s.reg 0) p.pcWidth))

end Sys2Proof.Machine
end

