-- ==== Sys2Proof/Machine/Display.lean ====
section
/-! DEFINITION. Clear, draw and font address (43_display.md). -/

namespace Sys2Proof.Machine

variable {p : Config.Params}

/-- 00E0 (R191). -/
def execCls (s : State p) : Result p := done (s.setFb (blankFb p))

/-- The draw of DXYN on the framebuffer: Vx, Vy and I are latched first, the rows go in ascending order (R192). -/
def drawSprite (x y : Reg) (n : Fin 16) (s : State p) : (Framebuffer p × Bool) × Option Nat :=
  drawRows s (s.effAddr 0) (s.reg x).toNat (s.reg y).toNat (List.range n.val) (s.fb, false)

/-- DXYN: VF is 0 from the start, and 1 at the end of a completed draw that collided (R192). -/
def execDrw (x y : Reg) (n : Fin 16) (s : State p) : Result p :=
  match drawSprite x y n s with
  | (d, none) => done (((s.setFlag false).setFb d.1).setFlag d.2)
  | (d, some a) => raise (.memoryBoundsError a) (.drw x y n) ((s.setFlag false).setFb d.1)

/-- FX29 (R194). -/
def execLdF (x : Reg) (s : State p) : Result p :=
  done (s.setI (fontAddr (s.reg x) p))

end Sys2Proof.Machine
end

