-- ==== Sys2Proof/Machine/IndexMemory.lean ====
section
/-! DEFINITION. The index register and the transfers between registers and memory (42_index_memory.md). None of the transfers
writes `I`. -/

namespace Sys2Proof.Machine

variable {p : Config.Params}

/-- ANNN (R171). -/
def execLdI (nnn : Addr) (s : State p) : Result p := done (s.setI (zextAddr nnn p.iWidth))

/-- FX1E: the sum modulo `MEM_SIZE`, 4096, to I, then the overflow flag (R172). -/
def execAddI (x : Reg) (s : State p) : Result p :=
  done ((s.setI (BitVec.ofNat p.iWidth ((s.I.toNat + (s.reg x).toNat) % p.memSize))).setFlag (indexOverflow s.I (s.reg x)))

/-- The bytes FX33 stores and where: hundreds, tens, ones from I (R173). -/
def bcdStores (x : Reg) (s : State p) : List (Nat × Byte) :=
  [(s.effAddr 0, bcdHundreds (s.reg x)), (s.effAddr 1, bcdTens (s.reg x)), (s.effAddr 2, bcdOnes (s.reg x))]

/-- FX33 (R173). -/
def execLdB (x : Reg) (s : State p) : Result p :=
  finish (.ldB x) (storeAll (bcdStores x s) s)

/-- The bytes FX55 stores and where: Vk at I + k, k ascending to x (R175). -/
def regStores (x : Reg) (s : State p) : List (Nat × Byte) :=
  (regsUpTo x).map fun k => (s.effAddr k.val, s.reg k)

/-- FX55 (R175). -/
def execStRegs (x : Reg) (s : State p) : Result p :=
  finish (.stRegs x) (storeAll (regStores x s) s)

/-- Where FX65 loads Vk from: I + k, k ascending to x (R176). -/
def regLoads (x : Reg) (s : State p) : List (Nat × Reg) :=
  (regsUpTo x).map fun k => (s.effAddr k.val, k)

/-- FX65 (R176). -/
def execLdRegs (x : Reg) (s : State p) : Result p :=
  finish (.ldRegs x) (loadAll (regLoads x s) s)

end Sys2Proof.Machine
end

