-- ==== Sys2Proof/Machine/TimerKey.lean ====
section
/-! DEFINITION. Keypad and timer instructions (44_timer_key.md). -/

namespace Sys2Proof.Machine

variable {p : Config.Params}

/-- EX9E (R212). -/
def execSkp (x : Reg) (s : State p) : Result p :=
  done (s.skipIf (keyPressed p.keyIndexPolicy s.keypad (s.reg x)))

/-- EXA1 (R213). -/
def execSknp (x : Reg) (s : State p) : Result p :=
  done (s.skipIf (!keyPressed p.keyIndexPolicy s.keypad (s.reg x)))

/-- FX07 (R214). -/
def execLdVxDt (x : Reg) (s : State p) : Result p := done (s.setReg x s.dt)

/-- FX0A: the lowest pressed key, or a retry of the same word (R215). -/
def execLdVxK (x : Reg) (s : State p) : Result p :=
  match lowestPressed s.keypad with
  | none => done (s.setPc (s.pc - 2))
  | some k => done (s.setReg x (BitVec.ofNat 8 k.val))

/-- FX15 (R216). -/
def execLdDtVx (x : Reg) (s : State p) : Result p := done (s.setDt (s.reg x))

/-- FX18 (R217). -/
def execLdStVx (x : Reg) (s : State p) : Result p := done (s.setSt (s.reg x))

end Sys2Proof.Machine
end

