-- ==== Sys2Proof/Machine/Execute.lean ====
section
/-! DEFINITION. The instruction of a STEP under any configuration (00_scope.md R7): the same meanings as the arms of `exec`,
which is this function at `Config.hw` (`execUnder_eq_exec`, Laws/Operations.lean; log 16). -/

namespace Sys2Proof.Machine

/-- Execute an instruction: one meaning each (30_encoding.md R85). -/
def execUnder {p : Config.Params} (i : Instr) (s : State p) : Result p :=
  match i with
  | .cls => execCls s
  | .ret => execRet s
  | .jp nnn => execJp nnn s
  | .call nnn => execCall nnn s
  | .seByte x nn => execSeByte x nn s
  | .sneByte x nn => execSneByte x nn s
  | .seReg x y => execSeReg x y s
  | .ldByte x nn => execLdByte x nn s
  | .addByte x nn => execAddByte x nn s
  | .ldReg x y => execLdReg x y s
  | .orReg x y => execOrReg x y s
  | .andReg x y => execAndReg x y s
  | .xorReg x y => execXorReg x y s
  | .addReg x y => execAddReg x y s
  | .subReg x y => execSubReg x y s
  | .shrReg x y => execShrReg x y s
  | .subnReg x y => execSubnReg x y s
  | .shlReg x y => execShlReg x y s
  | .sneReg x y => execSneReg x y s
  | .ldI nnn => execLdI nnn s
  | .jpV0 nnn => execJpV0 nnn s
  | .rnd x nn => execRnd x nn s
  | .drw x y n => execDrw x y n s
  | .skp x => execSkp x s
  | .sknp x => execSknp x s
  | .ldVxDt x => execLdVxDt x s
  | .ldVxK x => execLdVxK x s
  | .ldDtVx x => execLdDtVx x s
  | .ldStVx x => execLdStVx x s
  | .addI x => execAddI x s
  | .ldF x => execLdF x s
  | .ldB x => execLdB x s
  | .stRegs x => execStRegs x s
  | .ldRegs x => execLdRegs x s

end Sys2Proof.Machine
end

