-- ==== Sys2Proof/Machine/Operations.lean ====
section
/-! DEFINITION. The five operations of the host and the outputs (00_scope.md R10, R11), and which operation a step of the
model performs, under any configuration (R7). -/

namespace Sys2Proof.Machine

variable {p : Config.Params}

/-- RESET (70_reset_and_hazards.md R260): every piece of the spec's state to its reset value. The model's own fields stay:
what the host has still asked for, and the count of free bytes drawn, so that no two draws are related (log 1, log 2). -/
def opReset (s : State p) : State p :=
  { State.resetOf p with randByte := s.randByte, draws := s.draws, pending := s.pending }

/-- `memory[a + k] <- bytes[k]`, k ascending. -/
def Memory.writeBytes : List Byte → Nat → Memory → (p : Config.Params := Config.hw) → Memory
  | [], _, m, _ => m
  | b :: bs, a, m, p => Memory.writeBytes bs (a + 1) (m.write a b p) p

/-- LOAD (R265): the image from `PROGRAM_BASE` on where memory has room (3584 bytes here), or nothing and LoadTooLong. It may come late (R267, log 10). -/
def opLoad (rom : List Byte) (s : State p) : State p :=
  if rom.length > p.memSize - p.programBase then s.setLoadResult .loadTooLong
  else (s.setMem (Memory.writeBytes rom p.programBase s.mem p)).setLoadResult .ok

/-- One timer under TICK: saturating at 0 (60_exceptions.md R243). -/
def tickTimer (b : Byte) : Byte := if b = 0 then 0 else b - 1

/-- TICK (R243). -/
def opTick (s : State p) : State p := (s.setDt (tickTimer s.dt)).setSt (tickTimer s.st)

/-- SET_KEY (R245). -/
def opSetKey (index : Fin p.numKeys) (pressed : Bool) (s : State p) : State p := s.setKeypad (s.keypad.set index.val pressed)

/-- STEP(rand_byte) (30_encoding.md R84): fetch, advance, decode, execute. A fetch that faults writes nothing but
`step_result`, whose `fault_op` is then 0 (R55, R232); a word that is no instruction keeps the advance (R86). The byte is
latched for the one instruction that reads it (R87). -/
def opStep (randByte : Byte) (s : State p) : Result p :=
  match s.fetch with
  | none => raiseAt (.memoryBoundsError s.pc.toNat) s.pc 0 (s.setRandByte randByte)
  | some op =>
    match decode op with
    | none => raiseAt .unknownOpcode s.pc op (s.setRandByte randByte).advance
    | some i => execUnder i (s.setRandByte randByte).advance

/-- One operation, performed to completion (R10, R11). -/
def perform : Operation p → State p → Result p
  | .reset, s => .next (opReset s)
  | .load rom, s => .next (opLoad rom s)
  | .step randByte, s => opStep randByte s
  | .tick, s => .next (opTick s)
  | .setKey index pressed, s => .next (opSetKey index pressed s)

/-- The byte of a STEP for which the host names none (`RAND`; log 2). -/
def State.nextRandByte (s : State p) : Byte := p.rand s.draws

/-- One step of the machine of a configuration: the oldest operation the host has asked for; when there is none, a STEP with a
free byte (log 1, log 2). -/
def performNext (s : State p) : Result p :=
  match s.pending with
  | [] => opStep s.nextRandByte (s.setDraws (s.draws + 1))
  | op :: rest => perform op (s.setPending rest)

/-- The `framebuffer` output (60_exceptions.md R247). -/
def framebufferOut (s : State p) : Framebuffer p := s.fb

/-- The `sound_active` output (R248). -/
def soundActive (s : State p) : Bool := s.st != 0

/-- The code of `step_result` (R231). -/
def StepResult.code : StepResult p → Nat
  | .ok => 0
  | .fault .unknownOpcode _ _ => 1
  | .fault .stackUnderflow _ _ => 2
  | .fault .stackOverflow _ _ => 3
  | .fault (.memoryBoundsError _) _ _ => 4

end Sys2Proof.Machine
end

