-- ==== Sys2Proof/Machine/Step.lean ====
section
/-! DEFINITION. One step of the model is one operation of 00_scope.md R10, and where the next instruction's word lies. -/

namespace Sys2Proof.Machine

/-- One step of this hardware: the oldest pending operation, or a STEP when none is pending. Under another configuration `p` a
step of a `State p` is `performNext`, which this is at `Config.hw`. -/
def step (s : State) : Host.Outcome State Fault Refusal := performNext s

/-- Where the next STEP fetches: the pc, or the program region's start where the pc is past every fetchable address. -/
def State.fetchAddr (s : State) : Nat := if Config.hw.memSize ≤ s.pc.toNat + 1 then Config.hw.programBase else s.pc.toNat

/-- `s` with the word of the table's bits `w` stored where the next STEP fetches, and that STEP the next operation. -/
def State.withFetchWord (s : State) (nbits w : Nat) : State :=
  let a := s.fetchAddr
  let m := (s.mem.write a (tableBytes nbits w).1).write (a + 1) (tableBytes nbits w).2
  ((s.setMem m).setPc (BitVec.ofNat 16 a)).setPending []

end Sys2Proof.Machine
end

