-- ==== Sys2Proof/Safety.lean ====
section
/-! DEFINITION. The terms claims use: which parts of the state two states share, what each instruction may write
(10_state.md R38), the invariant of reachable states, the reset values, what a safe run is, and which pixels a sprite's 1 bits
address. Nothing here is part of the machine. -/

namespace Sys2Proof.Machine

/-- The parts of the state, one for each field. -/
inductive Part where
  | mem | pc | I | v | stack | dt | st | fb | keypad | stepResult | loadResult | randByte | draws | pending
deriving DecidableEq, Repr

/-- The part is the same in `s` and `t`; memory and registers are compared as programs read them. -/
def Part.same : Part → State → State → Prop
  | .mem, s, t => ∀ a, t.byteAt a = s.byteAt a
  | .pc, s, t => t.pc = s.pc
  | .I, s, t => t.I = s.I
  | .v, s, t => ∀ r, t.reg r = s.reg r
  | .stack, s, t => t.stack = s.stack
  | .dt, s, t => t.dt = s.dt
  | .st, s, t => t.st = s.st
  | .fb, s, t => t.fb = s.fb
  | .keypad, s, t => t.keypad = s.keypad
  | .stepResult, s, t => t.stepResult = s.stepResult
  | .loadResult, s, t => t.loadResult = s.loadResult
  | .randByte, s, t => t.randByte = s.randByte
  | .draws, s, t => t.draws = s.draws
  | .pending, s, t => t.pending = s.pending

/-- `t` differs from `s` in the listed parts at most. -/
def SameExcept (changed : List Part) (s t : State) : Prop := ∀ p, p ∉ changed → p.same s t

/-- Every register but those of `P` is the same. -/
def RegsSameExcept (P : Reg → Prop) (s t : State) : Prop := ∀ r, ¬ P r → t.reg r = s.reg r

/-- Every byte of memory but those at the addresses of `P` is the same. -/
def BytesSameExcept (P : Nat → Prop) (s t : State) : Prop := ∀ a, ¬ P a → t.byteAt a = s.byteAt a

end Sys2Proof.Machine

namespace Sys2Proof

open Machine (Part)

/-- The parts of the state an instruction may write (R38, the column of writes), apart from `step_result`. -/
def Instr.writes : Instr → List Part
  | .cls => [.fb]
  | .ret | .call _ => [.pc, .stack]
  | .jp _ | .jpV0 _ => [.pc]
  | .seByte _ _ | .sneByte _ _ | .seReg _ _ | .sneReg _ _ | .skp _ | .sknp _ => [.pc]
  | .ldByte _ _ | .addByte _ _ | .ldReg _ _ | .orReg _ _ | .andReg _ _ | .xorReg _ _ | .rnd _ _ => [.v]
  | .addReg _ _ | .subReg _ _ | .shrReg _ _ | .subnReg _ _ | .shlReg _ _ => [.v]
  | .ldI _ | .ldF _ => [.I]
  | .addI _ => [.I, .v]
  | .drw _ _ _ => [.fb, .v]
  | .ldVxDt _ | .ldRegs _ => [.v]
  | .ldVxK _ => [.v, .pc]
  | .ldDtVx _ => [.dt]
  | .ldStVx _ => [.st]
  | .ldB _ | .stRegs _ => [.mem]

/-- The registers an instruction may write (R38, the column of writes). -/
def Instr.writesReg : Instr → Reg → Prop
  | .ldByte x _, r | .addByte x _, r | .ldReg x _, r | .orReg x _, r | .andReg x _, r | .xorReg x _, r => r = x
  | .rnd x _, r | .ldVxDt x, r | .ldVxK x, r => r = x
  | .addReg x _, r | .subReg x _, r | .shrReg x _, r | .subnReg x _, r | .shlReg x _, r => r = x ∨ r = VF
  | .addI _, r | .drw _ _ _, r => r = VF
  | .ldRegs x, r => r ≤ x
  | .cls, _ | .ret, _ | .jp _, _ | .call _, _ | .jpV0 _, _ | .ldI _, _ | .ldF _, _ => False
  | .seByte _ _, _ | .sneByte _ _, _ | .seReg _ _, _ | .sneReg _ _, _ | .skp _, _ | .sknp _, _ => False
  | .ldDtVx _, _ | .ldStVx _, _ | .ldB _, _ | .stRegs _, _ => False

/-- The instructions that write VF as a flag (10_state.md R22). -/
def Instr.writesFlag : Instr → Bool
  | .addReg _ _ | .subReg _ _ | .shrReg _ _ | .subnReg _ _ | .shlReg _ _ | .addI _ | .drw _ _ _ => true
  | .cls | .ret | .jp _ | .call _ | .seByte _ _ | .sneByte _ _ | .seReg _ _ | .ldByte _ _ | .addByte _ _ => false
  | .ldReg _ _ | .orReg _ _ | .andReg _ _ | .xorReg _ _ | .sneReg _ _ | .ldI _ | .jpV0 _ | .rnd _ _ => false
  | .skp _ | .sknp _ | .ldVxDt _ | .ldVxK _ | .ldDtVx _ | .ldStVx _ | .ldF _ | .ldB _ | .stRegs _ | .ldRegs _ => false

end Sys2Proof

namespace Sys2Proof.Machine

/-- What every reachable state meets: memory is canonical, `pc` is at most 0x10FE (R26), `I` at most 0xFFF (R28), the stack
holds at most 16 entries (R29), each an address 2NNN can push (at most 0x1000, R26). -/
abbrev State.Inv (s : State) : Prop :=
  s.mem.wf = true ∧ s.pc.toNat ≤ 0x10FE ∧ s.I.toNat ≤ 0xFFF ∧ s.stack.length ≤ 16 ∧ ∀ a ∈ s.stack, a.toNat ≤ 0x1000

/-- The spec's state has the values of 10_state.md R37. -/
def ResetValues (t : State) : Prop :=
  (∀ a, a < 0x050 → t.byteAt a = 0) ∧
  (∀ k, k < 80 → t.byteAt (0x050 + k) = Config.font.getD k 0) ∧
  (∀ a, 0x0A0 ≤ a → a ≤ 0xFFF → t.byteAt a = 0) ∧
  t.pc.toNat = 0x0200 ∧ t.I.toNat = 0 ∧ (∀ r, (t.reg r).toNat = 0) ∧ t.stack = [] ∧ t.dt.toNat = 0 ∧ t.st.toNat = 0 ∧
  (∀ row col, pixel t.fb row col = false) ∧ (∀ k : Key, t.keypad[k] = false) ∧ t.stepResult = .ok ∧ t.loadResult = .ok

/-- A run of `k` steps in which no STEP reports a fault (93_implementation_defined.md: a faulting state is a bad final state
for a claim; the model itself goes on, 60_exceptions.md R234). -/
def SafeRun : Nat → State → Prop
  | 0, s => s.stepResult = .ok
  | k + 1, s => s.stepResult = .ok ∧ ∃ t, step s = .next t ∧ SafeRun k t

/-- Instructions executed by one STEP each, one after the other: the instruction runs after its STEP's advance (30_encoding.md
R84), from the state the STEP before it left, so `pc` of that state is the address it is fetched from. -/
def execAll : List Instr → State → Host.Outcome State Fault Refusal
  | [], s => .next s
  | i :: is, s =>
    match exec i s.advance with
    | .next t => execAll is t
    | .fault r => .fault r
    | .refused r => .refused r

/-- Operations performed one after the other. -/
def performAll : List Operation → State → Host.Outcome State Fault Refusal
  | [], s => .next s
  | op :: ops, s =>
    match perform op s with
    | .next t => performAll ops t
    | .fault r => .fault r
    | .refused r => .refused r

/-- Pixel (row, col) is addressed by a 1 bit of one of the first `n` rows of the sprite that DXYN draws (43_display.md R190,
R192): bit `7 - b` of the byte at `I + r`, at column `(Vx + b) mod 64` and row `(Vy + r) mod 32`. -/
def SpriteBit (s : State) (x y : Reg) (n : Nat) (row : Fin 32) (col : Fin 64) : Prop :=
  ∃ r, r < n ∧ ∃ b, b < 8 ∧ (s.byteAt (s.I.toNat + r)).getLsbD (7 - b) = true ∧
    row.val = ((s.reg y).toNat + r) % 32 ∧ col.val = ((s.reg x).toNat + b) % 64

/-- The key test of EX9E and EXA1 in the words of 44_timer_key.md R211. -/
def KeyDown (s : State) (v : Byte) : Prop :=
  ∃ k : Key, s.keypad[k] = true ∧
    (v.toNat = k.val ∨ (0xF < v.toNat ∧ Config.keyIndexPolicy = .maskLowNibble ∧ v.toNat % 16 = k.val))

end Sys2Proof.Machine
end

