-- ==== Sys2Proof/Certificates/Slice0/Obligations.lean ====
section
/-! DEFINITION. The statements for the provers. Every statement about an instruction is about `exec`, which runs after the
STEP's advance: the state `s` it is given has `pc = pc_f + 2` (30_encoding.md R84). -/

open Sys2Proof Sys2Proof.Machine

/-! ### Encoding -/

/-- The word of every instruction as a number: its fixed nibbles and its fields in the places the formats of R72 give them. -/
def Obligations.InstructionWords : Prop :=
  ∀ (x y : Reg) (nn : Byte) (nnn : Addr) (n : Fin 16),
    (encode .cls).toNat = 0x00E0 ∧
    (encode .ret).toNat = 0x00EE ∧
    (encode (.jp nnn)).toNat = 0x1000 + nnn.toNat ∧
    (encode (.call nnn)).toNat = 0x2000 + nnn.toNat ∧
    (encode (.ldI nnn)).toNat = 0xA000 + nnn.toNat ∧
    (encode (.jpV0 nnn)).toNat = 0xB000 + nnn.toNat ∧
    (encode (.seByte x nn)).toNat = 0x3000 + 256 * x.val + nn.toNat ∧
    (encode (.sneByte x nn)).toNat = 0x4000 + 256 * x.val + nn.toNat ∧
    (encode (.ldByte x nn)).toNat = 0x6000 + 256 * x.val + nn.toNat ∧
    (encode (.addByte x nn)).toNat = 0x7000 + 256 * x.val + nn.toNat ∧
    (encode (.rnd x nn)).toNat = 0xC000 + 256 * x.val + nn.toNat ∧
    (encode (.seReg x y)).toNat = 0x5000 + 256 * x.val + 16 * y.val ∧
    (encode (.ldReg x y)).toNat = 0x8000 + 256 * x.val + 16 * y.val ∧
    (encode (.orReg x y)).toNat = 0x8001 + 256 * x.val + 16 * y.val ∧
    (encode (.andReg x y)).toNat = 0x8002 + 256 * x.val + 16 * y.val ∧
    (encode (.xorReg x y)).toNat = 0x8003 + 256 * x.val + 16 * y.val ∧
    (encode (.addReg x y)).toNat = 0x8004 + 256 * x.val + 16 * y.val ∧
    (encode (.subReg x y)).toNat = 0x8005 + 256 * x.val + 16 * y.val ∧
    (encode (.shrReg x y)).toNat = 0x8006 + 256 * x.val + 16 * y.val ∧
    (encode (.subnReg x y)).toNat = 0x8007 + 256 * x.val + 16 * y.val ∧
    (encode (.shlReg x y)).toNat = 0x800E + 256 * x.val + 16 * y.val ∧
    (encode (.sneReg x y)).toNat = 0x9000 + 256 * x.val + 16 * y.val ∧
    (encode (.drw x y n)).toNat = 0xD000 + 256 * x.val + 16 * y.val + n.val ∧
    (encode (.skp x)).toNat = 0xE09E + 256 * x.val ∧
    (encode (.sknp x)).toNat = 0xE0A1 + 256 * x.val ∧
    (encode (.ldVxDt x)).toNat = 0xF007 + 256 * x.val ∧
    (encode (.ldVxK x)).toNat = 0xF00A + 256 * x.val ∧
    (encode (.ldDtVx x)).toNat = 0xF015 + 256 * x.val ∧
    (encode (.ldStVx x)).toNat = 0xF018 + 256 * x.val ∧
    (encode (.addI x)).toNat = 0xF01E + 256 * x.val ∧
    (encode (.ldF x)).toNat = 0xF029 + 256 * x.val ∧
    (encode (.ldB x)).toNat = 0xF033 + 256 * x.val ∧
    (encode (.stRegs x)).toNat = 0xF055 + 256 * x.val ∧
    (encode (.ldRegs x)).toNat = 0xF065 + 256 * x.val

/-- Every well-formed instruction decodes from its encoding, every operand at every value (30_encoding.md, formats of R72). -/
def Obligations.DecodeOfEncode : Prop := ∀ i : Instr, i.wf = true → decode (encode i) = some i

/-- A word that decodes is the encoding of what it decodes to, so no two words share an instruction. -/
def Obligations.EncodeOfDecode : Prop := ∀ (op : Word) (i : Instr), decode op = some i → encode i = op ∧ i.wf = true

/-- R77 and R78: 0x00E0 is CLS, 0x00EE is RET, and exactly these words do not decode. -/
def Obligations.UndecodedWords : Prop :=
  decode 0x00E0 = some .cls ∧ decode 0x00EE = some .ret ∧ ∀ op : Word, decode op = none ↔
    (op.toNat < 0x1000 ∧ op.toNat ≠ 0x00E0 ∧ op.toNat ≠ 0x00EE) ∨
    ((op.toNat / 0x1000 = 0x5 ∨ op.toNat / 0x1000 = 0x9) ∧ op.toNat % 16 ≠ 0) ∨
    (op.toNat / 0x1000 = 0x8 ∧ op.toNat % 16 ∉ [0x0, 0x1, 0x2, 0x3, 0x4, 0x5, 0x6, 0x7, 0xE]) ∨
    (op.toNat / 0x1000 = 0xE ∧ op.toNat % 256 ∉ [0x9E, 0xA1]) ∨
    (op.toNat / 0x1000 = 0xF ∧ op.toNat % 256 ∉ [0x07, 0x0A, 0x15, 0x18, 0x1E, 0x29, 0x33, 0x55, 0x65])

/-- Words written out from the formats of R72 decode to the instructions they stand for, one or more of each format. -/
def Obligations.SampleWordsDecode : Prop :=
  decode 0x00E0 = some .cls ∧ decode 0x00EE = some .ret ∧ decode 0x1ABC = some (.jp 0xABC) ∧
  decode 0x2400 = some (.call 0x400) ∧ decode 0x3305 = some (.seByte 3 0x05) ∧
  decode 0x5120 = some (.seReg 1 2) ∧ decode 0x8AB4 = some (.addReg 0xA 0xB) ∧ decode 0x812E = some (.shlReg 1 2) ∧
  decode 0xA300 = some (.ldI 0x300) ∧ decode 0xB123 = some (.jpV0 0x123) ∧ decode 0xC30F = some (.rnd 3 0x0F) ∧
  decode 0xD125 = some (.drw 1 2 5) ∧ decode 0xE59E = some (.skp 5) ∧ decode 0xE5A1 = some (.sknp 5) ∧
  decode 0xF20A = some (.ldVxK 2) ∧ decode 0xF31E = some (.addI 3) ∧ decode 0xF265 = some (.ldRegs 2) ∧
  decode 0x01E0 = none ∧ decode 0x5121 = none ∧ decode 0x8128 = none ∧ decode 0xF0FF = none

/-- The host's word for an instruction is read as it, and, stored where the next STEP fetches, is run as it. -/
def Obligations.TableWordDecodesAndRuns : Prop :=
  ∀ (i : Instr) (s : State), s.mem.wf = true →
    decodeTableWord 16 (encode i).toNat = some i ∧
    ∃ u : State, u = s.withFetchWord 16 (encode i).toNat ∧
      SameExcept [.mem, .pc, .pending] s u ∧ (s.pc.toNat ≤ 0xFFE → u.pc = s.pc) ∧
      BytesSameExcept (fun a => a = u.pc.toNat ∨ a = u.pc.toNat + 1) s u ∧
      step u = exec i (((u.setDraws (u.draws + 1)).setRandByte (Config.randByte u.draws)).setPc (u.pc + 2))

/-! ### The step -/

/-- R84: when the big-endian word at pc decodes to `i`, a STEP is `exec i` after the advance: with the byte the host gave the
STEP, or, with nothing pending, with a free byte. -/
def Obligations.StepRunsDecodedInstruction : Prop :=
  ∀ (s : State) (op : Word) (i : Instr), s.pc.toNat ≤ 0xFFE →
    op.toNat = 256 * (s.byteAt s.pc.toNat).toNat + (s.byteAt (s.pc.toNat + 1)).toNat → decode op = some i →
    (∀ b rest, s.pending = .step b :: rest →
      step s = exec i (((s.setPending rest).setRandByte b).setPc (s.pc + 2))) ∧
    (s.pending = [] →
      step s = exec i (((s.setDraws (s.draws + 1)).setRandByte (Config.randByte s.draws)).setPc (s.pc + 2)))

/-- R86: a STEP on an undecoded word reports UnknownOpcode, keeps the advance and writes no other architectural state. -/
def Obligations.UnknownOpcodeStep : Prop :=
  ∀ (s : State) (op : Word) (b : Byte) (rest : List Operation), s.pc.toNat ≤ 0xFFE →
    op.toNat = 256 * (s.byteAt s.pc.toNat).toNat + (s.byteAt (s.pc.toNat + 1)).toNat → decode op = none →
    s.pending = .step b :: rest →
    ∃ t, step s = .next t ∧ t.stepResult = .fault .unknownOpcode s.pc op ∧ t.pc = s.pc + 2 ∧
      t.randByte = b ∧ t.pending = rest ∧ SameExcept [.pc, .stepResult, .randByte, .pending] s t

/-- R55: the fetch reads the big-endian word up to pc = 0xFFE; above, the STEP reports MemoryBoundsError(pc) and writes no
state, pc included; a second STEP then faults in the same way (R234). -/
def Obligations.FetchBound : Prop :=
  ∀ s : State,
    (s.pc.toNat ≤ 0xFFE → ∃ op, s.fetch = some op ∧
      op.toNat = 256 * (s.byteAt s.pc.toNat).toNat + (s.byteAt (s.pc.toNat + 1)).toNat) ∧
    (0xFFE < s.pc.toNat → s.fetch = none ∧ ∀ b rest, s.pending = .step b :: rest →
      ∃ t, step s = .next t ∧ t.stepResult = .fault (.memoryBoundsError s.pc.toNat) s.pc 0 ∧
        t.randByte = b ∧ t.pending = rest ∧ SameExcept [.stepResult, .randByte, .pending] s t ∧
        ∀ b' rest', rest = .step b' :: rest' → ∃ u, step t = .next u ∧ u.stepResult = t.stepResult ∧
          SameExcept [.randByte, .pending] t u)

/-- The block never halts or stops: every step answers a next state (R234). -/
def Obligations.EveryStepAnswersNext : Prop := ∀ s : State, ∃ t, step s = .next t

/-- Operations are performed one at a time, in the order they are asked for, each from the state the one before it left (R11):
a run that has them pending is their effects one after the other. -/
def Obligations.PendingOperationsInOrder : Prop :=
  ∀ (ops rest : List Operation) (s : State), ∃ t,
    performAll ops (s.setPending rest) = .next t ∧ t.pending = rest ∧
    Host.Core.run Sys2Proof.core ops.length (s.setPending (ops ++ rest)) = .next t

/-- R87: the byte of a STEP matters only to a CXNN: with another byte every other STEP ends in the same state but for the
latched byte itself. -/
def Obligations.RandByteOnlyForRnd : Prop :=
  ∀ (s t : State) (b b' : Byte), perform (.step b) s = .next t →
    (∀ op x nn, s.fetch = some op → decode op ≠ some (.rnd x nn)) →
    perform (.step b') s = .next (t.setRandByte b')

/-! ### Invariants -/

/-- Every step keeps the invariant, from every state that meets it, whatever operations are pending. -/
def Obligations.StepKeepsInvariant : Prop := ∀ s t : State, s.Inv → step s = .next t → t.Inv

/-- The state after reset meets the invariant. -/
def Obligations.ResetMeetsInvariant : Prop := State.reset.Inv

/-- Two canonical memories that read the same at every address of the machine are the same list. -/
def Obligations.CanonicalMemoryUnique : Prop :=
  ∀ m m' : Memory, m.wf = true → m'.wf = true → (∀ a, a < 4096 → m.read a = m'.read a) → m = m'

/-! ### The host's operations -/

/-- R37: the values of the state after reset. -/
def Obligations.ResetState : Prop := ResetValues State.reset

/-- R260: RESET gives every piece of the spec's state its reset value from any state. The model's choices stand beside it: the
host's remaining requests stay (log 1), and memory is in the canonical form that the invariant has (log 15). -/
def Obligations.ResetOperation : Prop :=
  ∀ (s : State) (rest : List Operation), s.pending = .reset :: rest →
    ∃ t, step s = .next t ∧ ResetValues t ∧ t.Inv ∧ t.pending = rest

/-- R265: LOAD of at most 3584 bytes writes byte k at 0x200 + k and nothing else; a longer image writes nothing. -/
def Obligations.LoadWritesImage : Prop :=
  ∀ (s : State) (rom : List Byte) (rest : List Operation), s.mem.wf = true → s.pending = .load rom :: rest →
    ∃ t, step s = .next t ∧ t.pending = rest ∧
      (rom.length ≤ 3584 → t.loadResult = .ok ∧ SameExcept [.mem, .loadResult, .pending] s t ∧
        (∀ (k : Nat) (h : k < rom.length), t.byteAt (0x200 + k) = rom[k]) ∧
        BytesSameExcept (fun a => 0x200 ≤ a ∧ a < 0x200 + rom.length) s t) ∧
      (3584 < rom.length → t.loadResult = .loadTooLong ∧ SameExcept [.loadResult, .pending] s t)

/-- R243: TICK takes one from each timer that is not zero, independently, and writes nothing else. -/
def Obligations.TickDecrementsTimers : Prop :=
  ∀ (s : State) (rest : List Operation), s.pending = .tick :: rest →
    ∃ t, step s = .next t ∧ t.dt.toNat = s.dt.toNat - 1 ∧ t.st.toNat = s.st.toNat - 1 ∧ t.pending = rest ∧
      SameExcept [.dt, .st, .pending] s t

/-- R245: SET_KEY writes one key state and nothing else. -/
def Obligations.SetKeyWritesOneKey : Prop :=
  ∀ (s : State) (k : Key) (pressed : Bool) (rest : List Operation), s.pending = .setKey k pressed :: rest →
    ∃ t, step s = .next t ∧ t.keypad[k] = pressed ∧ (∀ j : Key, j ≠ k → t.keypad[j] = s.keypad[j]) ∧
      t.pending = rest ∧ SameExcept [.keypad, .pending] s t

/-- R248: `sound_active` is 1 exactly when ST is not zero. -/
def Obligations.SoundActiveOutput : Prop := ∀ s : State, soundActive s = true ↔ s.st.toNat ≠ 0

/-! ### Control transfer -/

/-- R101: RET pops the return address into pc; on an empty stack it reports StackUnderflow and nothing is popped. -/
def Obligations.RetPopsReturnAddress : Prop :=
  ∀ s : State,
    (∀ (l : List Word) (a : Word), s.stack = l ++ [a] → ∃ t, exec .ret s = .next t ∧ t.stepResult = .ok ∧ t.pc = a ∧
      t.stack = l ∧ SameExcept [.pc, .stack, .stepResult] s t) ∧
    (s.stack = [] → ∃ t, exec .ret s = .next t ∧ t.stepResult = .fault .stackUnderflow (s.pc - 2) 0x00EE ∧
      SameExcept [.stepResult] s t)

/-- R102 and R108: jumps write pc with nnn, or with the exact sum nnn + V0, and nothing else. -/
def Obligations.JumpTargets : Prop :=
  ∀ (s : State) (nnn : Addr),
    (∃ t, exec (.jp nnn) s = .next t ∧ t.stepResult = .ok ∧ t.pc.toNat = nnn.toNat ∧ SameExcept [.pc, .stepResult] s t) ∧
    (∃ t, exec (.jpV0 nnn) s = .next t ∧ t.stepResult = .ok ∧ t.pc.toNat = nnn.toNat + (s.reg 0).toNat ∧
      SameExcept [.pc, .stepResult] s t)

/-- R103: CALL pushes the advanced pc and jumps; on a stack that holds 16 entries it reports StackOverflow, pushes nothing
and does not jump. -/
def Obligations.CallPushesReturnAddress : Prop :=
  ∀ (s : State) (nnn : Addr),
    (s.stack.length < 16 → ∃ t, exec (.call nnn) s = .next t ∧ t.stepResult = .ok ∧ t.pc.toNat = nnn.toNat ∧
      t.stack = s.stack ++ [s.pc] ∧ SameExcept [.pc, .stack, .stepResult] s t) ∧
    (s.stack.length = 16 → ∃ t, exec (.call nnn) s = .next t ∧
      t.stepResult = .fault .stackOverflow (s.pc - 2) (encode (.call nnn)) ∧ SameExcept [.stepResult] s t)

/-- R104 and R105: 3XNN skips when Vx equals the byte, 4XNN when it does not; nothing but pc is written. -/
def Obligations.SkipsOnByte : Prop :=
  ∀ (s : State) (x : Reg) (nn : Byte),
    (∃ t, exec (.seByte x nn) s = .next t ∧ t.stepResult = .ok ∧ SameExcept [.pc, .stepResult] s t ∧
      ((s.reg x).toNat = nn.toNat → t.pc = s.pc + 2) ∧ ((s.reg x).toNat ≠ nn.toNat → t.pc = s.pc)) ∧
    (∃ t, exec (.sneByte x nn) s = .next t ∧ t.stepResult = .ok ∧ SameExcept [.pc, .stepResult] s t ∧
      ((s.reg x).toNat ≠ nn.toNat → t.pc = s.pc + 2) ∧ ((s.reg x).toNat = nn.toNat → t.pc = s.pc))

/-- R106 and R107: 5XY0 skips when the registers are equal, 9XY0 when they differ; nothing but pc is written. -/
def Obligations.SkipsOnRegisters : Prop :=
  ∀ (s : State) (x y : Reg),
    (∃ t, exec (.seReg x y) s = .next t ∧ t.stepResult = .ok ∧ SameExcept [.pc, .stepResult] s t ∧
      ((s.reg x).toNat = (s.reg y).toNat → t.pc = s.pc + 2) ∧ ((s.reg x).toNat ≠ (s.reg y).toNat → t.pc = s.pc)) ∧
    (∃ t, exec (.sneReg x y) s = .next t ∧ t.stepResult = .ok ∧ SameExcept [.pc, .stepResult] s t ∧
      ((s.reg x).toNat ≠ (s.reg y).toNat → t.pc = s.pc + 2) ∧ ((s.reg x).toNat = (s.reg y).toNat → t.pc = s.pc))

/-- R211-R213: EX9E skips when the key of Vx is pressed, EXA1 when it is not, for every Vx and under either key index policy;
nothing but pc is written. -/
def Obligations.SkipsOnKeys : Prop :=
  ∀ (s : State) (x : Reg),
    (∃ t, exec (.skp x) s = .next t ∧ t.stepResult = .ok ∧ SameExcept [.pc, .stepResult] s t ∧
      (KeyDown s (s.reg x) → t.pc = s.pc + 2) ∧ (¬ KeyDown s (s.reg x) → t.pc = s.pc)) ∧
    (∃ t, exec (.sknp x) s = .next t ∧ t.stepResult = .ok ∧ SameExcept [.pc, .stepResult] s t ∧
      (¬ KeyDown s (s.reg x) → t.pc = s.pc + 2) ∧ (KeyDown s (s.reg x) → t.pc = s.pc))

/-- R109: a run of N calls that fit the stack and then k returns, each by a STEP with its advance (R84), brings back the stack
from before the last k calls and the pc after the first of those k: the address that call was fetched from, plus 2 (R103). So
the calls return in reverse order, for every k up to N. One return more, when the stack was empty before the calls, reports
StackUnderflow at the address it is fetched from (R232) and pops nothing. -/
def Obligations.CallsReturnInReverse : Prop :=
  ∀ (targets : List Addr) (s : State), s.stack.length + targets.length ≤ 16 →
    (∀ k, k ≤ targets.length → ∃ t u,
      execAll (targets.map .call ++ List.replicate k .ret) s = .next t ∧
      execAll ((targets.take (targets.length - k)).map .call) s = .next u ∧
      t.stack = u.stack ∧ (k = 0 → t.pc = u.pc) ∧ (0 < k → t.pc = u.pc + 2) ∧
      SameExcept [.pc, .stack, .stepResult] s t) ∧
    (s.stack = [] → ∃ t w,
      execAll (targets.map .call ++ List.replicate targets.length .ret) s = .next t ∧
      execAll (targets.map .call ++ List.replicate (targets.length + 1) .ret) s = .next w ∧
      w.stepResult = .fault .stackUnderflow t.pc 0x00EE ∧ w.pc = t.pc + 2 ∧ w.stack = [] ∧
      SameExcept [.pc, .stepResult] t w)

/-! ### Register arithmetic -/

/-- R131, R133 and R142: 6XNN, 8XY0 and CXNN write Vx with the byte, with Vy, or with the STEP's random byte AND the byte;
no other register, VF included, is written. -/
def Obligations.RegisterLoads : Prop :=
  ∀ (s : State) (x y : Reg) (nn : Byte),
    (∃ t, exec (.ldByte x nn) s = .next t ∧ t.stepResult = .ok ∧ t.reg x = nn ∧ RegsSameExcept (· = x) s t ∧
      SameExcept [.v, .stepResult] s t) ∧
    (∃ t, exec (.ldReg x y) s = .next t ∧ t.stepResult = .ok ∧ t.reg x = s.reg y ∧ RegsSameExcept (· = x) s t ∧
      SameExcept [.v, .stepResult] s t) ∧
    (∃ t, exec (.rnd x nn) s = .next t ∧ t.stepResult = .ok ∧
      (∀ k, k < 8 → (t.reg x).getLsbD k = (s.randByte.getLsbD k && nn.getLsbD k)) ∧ RegsSameExcept (· = x) s t ∧
      SameExcept [.v, .stepResult] s t)

/-- R132: 7XNN adds the byte modulo 256 and records no carry; with x = 0xF VF gets the sum. -/
def Obligations.AddByteWithoutFlag : Prop :=
  ∀ (s : State) (x : Reg) (nn : Byte),
    ∃ t, exec (.addByte x nn) s = .next t ∧ t.stepResult = .ok ∧ (t.reg x).toNat = ((s.reg x).toNat + nn.toNat) % 256 ∧
      RegsSameExcept (· = x) s t ∧ SameExcept [.v, .stepResult] s t

/-- R134-R136: 8XY1, 8XY2 and 8XY3 combine the registers bit by bit and write no flag. -/
def Obligations.BitwiseOperations : Prop :=
  ∀ (s : State) (x y : Reg),
    (∃ t, exec (.orReg x y) s = .next t ∧ t.stepResult = .ok ∧
      (∀ k, k < 8 → (t.reg x).getLsbD k = ((s.reg x).getLsbD k || (s.reg y).getLsbD k)) ∧ RegsSameExcept (· = x) s t ∧
      SameExcept [.v, .stepResult] s t) ∧
    (∃ t, exec (.andReg x y) s = .next t ∧ t.stepResult = .ok ∧
      (∀ k, k < 8 → (t.reg x).getLsbD k = ((s.reg x).getLsbD k && (s.reg y).getLsbD k)) ∧ RegsSameExcept (· = x) s t ∧
      SameExcept [.v, .stepResult] s t) ∧
    (∃ t, exec (.xorReg x y) s = .next t ∧ t.stepResult = .ok ∧
      (∀ k, k < 8 → (t.reg x).getLsbD k = ((s.reg x).getLsbD k != (s.reg y).getLsbD k)) ∧ RegsSameExcept (· = x) s t ∧
      SameExcept [.v, .stepResult] s t)

/-- R137: 8XY4 writes the sum modulo 256 to Vx and the carry to VF; with x = 0xF VF holds the carry. -/
def Obligations.AddWithCarry : Prop :=
  ∀ (s : State) (x y : Reg),
    ∃ t, exec (.addReg x y) s = .next t ∧ t.stepResult = .ok ∧
      (x ≠ VF → (t.reg x).toNat = ((s.reg x).toNat + (s.reg y).toNat) % 256) ∧
      (t.reg VF).toNat = (if 255 < (s.reg x).toNat + (s.reg y).toNat then 1 else 0) ∧
      RegsSameExcept (fun r => r = x ∨ r = VF) s t ∧ SameExcept [.v, .stepResult] s t

/-- R138 and R140: 8XY5 and 8XY7 write the difference modulo 256 to Vx and the absence of a borrow to VF; with x = 0xF VF
holds the flag. -/
def Obligations.SubtractWithoutBorrow : Prop :=
  ∀ (s : State) (x y : Reg),
    (∃ t, exec (.subReg x y) s = .next t ∧ t.stepResult = .ok ∧
      (x ≠ VF → ((t.reg x).toNat : Int) = (((s.reg x).toNat : Int) - (s.reg y).toNat) % 256) ∧
      (t.reg VF).toNat = (if (s.reg y).toNat ≤ (s.reg x).toNat then 1 else 0) ∧
      RegsSameExcept (fun r => r = x ∨ r = VF) s t ∧ SameExcept [.v, .stepResult] s t) ∧
    (∃ t, exec (.subnReg x y) s = .next t ∧ t.stepResult = .ok ∧
      (x ≠ VF → ((t.reg x).toNat : Int) = (((s.reg y).toNat : Int) - (s.reg x).toNat) % 256) ∧
      (t.reg VF).toNat = (if (s.reg x).toNat ≤ (s.reg y).toNat then 1 else 0) ∧
      RegsSameExcept (fun r => r = x ∨ r = VF) s t ∧ SameExcept [.v, .stepResult] s t)

/-- R139 and R141: 8XY6 and 8XYE write the source shifted by one to Vx and the bit shifted out to VF. The source is the
parameter `SHIFT_SOURCE`: Vy for this hardware, so Vy is what `exec` shifts; under VX the shift is of Vx. With x = 0xF VF holds
the bit; no other register is written. -/
def Obligations.ShiftsByOne : Prop :=
  ∀ (s : State) (x y : Reg), Config.hw.shiftSource = .vy ∧
    (∃ t, exec (.shrReg x y) s = .next t ∧ t.stepResult = .ok ∧ (x ≠ VF → (t.reg x).toNat = (s.reg y).toNat / 2) ∧
      (t.reg VF).toNat = (s.reg y).toNat % 2 ∧ RegsSameExcept (fun r => r = x ∨ r = VF) s t ∧
      SameExcept [.v, .stepResult] s t) ∧
    (∃ t, exec (.shlReg x y) s = .next t ∧ t.stepResult = .ok ∧
      (x ≠ VF → (t.reg x).toNat = (s.reg y).toNat * 2 % 256) ∧
      (t.reg VF).toNat = (s.reg y).toNat / 128 ∧ RegsSameExcept (fun r => r = x ∨ r = VF) s t ∧
      SameExcept [.v, .stepResult] s t) ∧
    (x ≠ VF → ((shiftRight .vx x y s).reg x).toNat = (s.reg x).toNat / 2 ∧
      ((shiftLeft .vx x y s).reg x).toNat = (s.reg x).toNat * 2 % 256) ∧
    ((shiftRight .vx x y s).reg VF).toNat = (s.reg x).toNat % 2 ∧
    ((shiftLeft .vx x y s).reg VF).toNat = (s.reg x).toNat / 128

/-- R22: exactly the seven flag writers write VF as a flag, and only with 0 or 1; any other instruction changes VF only where
it names VF as a destination. -/
def Obligations.FlagWriters : Prop :=
  ∀ (i : Instr) (s t : State), exec i s = .next t →
    (i.writesFlag = true → (t.reg VF).toNat = 0 ∨ (t.reg VF).toNat = 1) ∧
    (i.writesFlag = false → t.reg VF ≠ s.reg VF →
      (∃ nn, i = .ldByte VF nn ∨ i = .addByte VF nn ∨ i = .rnd VF nn) ∨
      (∃ y, i = .ldReg VF y ∨ i = .orReg VF y ∨ i = .andReg VF y ∨ i = .xorReg VF y) ∨
      i = .ldVxDt VF ∨ i = .ldVxK VF ∨ i = .ldRegs VF)

/-! ### Index register and memory transfers -/

/-- R171 and R194: ANNN and FX29 write I with nnn and with 0x050 + 5 * Vx, not masked; nothing else is written. -/
def Obligations.IndexLoads : Prop :=
  ∀ (s : State) (nnn : Addr) (x : Reg),
    (∃ t, exec (.ldI nnn) s = .next t ∧ t.stepResult = .ok ∧ t.I.toNat = nnn.toNat ∧ SameExcept [.I, .stepResult] s t) ∧
    (∃ t, exec (.ldF x) s = .next t ∧ t.stepResult = .ok ∧ t.I.toNat = 0x050 + 5 * (s.reg x).toNat ∧
      SameExcept [.I, .stepResult] s t)

/-- R172: FX1E writes I with the sum modulo 4096 and VF with the overflow past 0xFFF. -/
def Obligations.IndexAdd : Prop :=
  ∀ (s : State) (x : Reg),
    ∃ t, exec (.addI x) s = .next t ∧ t.stepResult = .ok ∧ t.I.toNat = (s.I.toNat + (s.reg x).toNat) % 4096 ∧
      (t.reg VF).toNat = (if 0xFFF < s.I.toNat + (s.reg x).toNat then 1 else 0) ∧
      RegsSameExcept (· = VF) s t ∧ SameExcept [.I, .v, .stepResult] s t

/-- R173: FX33 stores the hundreds, tens and ones digits at I, I + 1 and I + 2, up to the first address above 0xFFF, where it
reports MemoryBoundsError; the stored bytes are those addresses, and every other byte is as before. -/
def Obligations.BcdStoresDigits : Prop :=
  ∀ (s : State) (x : Reg), s.mem.wf = true →
    ∃ t, exec (.ldB x) s = .next t ∧
      (s.effAddr 2 ≤ 0xFFF → t.stepResult = .ok) ∧
      (0xFFF < s.effAddr 2 →
        t.stepResult = .fault (.memoryBoundsError (max s.I.toNat 0x1000)) (s.pc - 2) (encode (.ldB x))) ∧
      (s.effAddr 0 ≤ 0xFFF → (t.byteAt (s.effAddr 0)).toNat = (s.reg x).toNat / 100) ∧
      (s.effAddr 1 ≤ 0xFFF → (t.byteAt (s.effAddr 1)).toNat = (s.reg x).toNat / 10 % 10) ∧
      (s.effAddr 2 ≤ 0xFFF → (t.byteAt (s.effAddr 2)).toNat = (s.reg x).toNat % 10) ∧
      BytesSameExcept (fun a => ∃ k, k < 3 ∧ a = s.effAddr k ∧ a ≤ 0xFFF) s t ∧ SameExcept [.mem, .stepResult] s t

/-- R175: FX55 stores V0..Vx at I..I + x, up to the first address above 0xFFF, where it reports MemoryBoundsError; every other
byte, and I, are as before. -/
def Obligations.StoreRegisters : Prop :=
  ∀ (s : State) (x : Reg), s.mem.wf = true →
    ∃ t, exec (.stRegs x) s = .next t ∧
      (s.effAddr x.val ≤ 0xFFF → t.stepResult = .ok) ∧
      (0xFFF < s.effAddr x.val →
        t.stepResult = .fault (.memoryBoundsError (max s.I.toNat 0x1000)) (s.pc - 2) (encode (.stRegs x))) ∧
      (∀ k : Reg, k ≤ x → s.effAddr k.val ≤ 0xFFF → t.byteAt (s.effAddr k.val) = s.reg k) ∧
      BytesSameExcept (fun a => ∃ k : Reg, k ≤ x ∧ a = s.effAddr k.val ∧ a ≤ 0xFFF) s t ∧
      SameExcept [.mem, .stepResult] s t

/-- R176: FX65 loads V0..Vx from I..I + x, up to the first address above 0xFFF, where it reports MemoryBoundsError; every other
register, memory and I are as before. -/
def Obligations.LoadRegisters : Prop :=
  ∀ (s : State) (x : Reg),
    ∃ t, exec (.ldRegs x) s = .next t ∧
      (s.effAddr x.val ≤ 0xFFF → t.stepResult = .ok) ∧
      (0xFFF < s.effAddr x.val →
        t.stepResult = .fault (.memoryBoundsError (max s.I.toNat 0x1000)) (s.pc - 2) (encode (.ldRegs x))) ∧
      (∀ k : Reg, k ≤ x → s.effAddr k.val ≤ 0xFFF → t.reg k = s.byteAt (s.effAddr k.val)) ∧
      RegsSameExcept (fun k => k ≤ x ∧ s.effAddr k.val ≤ 0xFFF) s t ∧ SameExcept [.v, .stepResult] s t

/-- R177: FX65 after FX55, with the same I and x and the stored bytes unchanged, restores V0..Vx; FX65 with x = 2 after FX33
loads the three decimal digits. -/
def Obligations.StoreThenLoadRestores : Prop :=
  ∀ (s t u : State) (x : Reg), s.mem.wf = true → u.I = t.I →
    (exec (.stRegs x) s = .next t → t.stepResult = .ok →
      (∀ a, s.I.toNat ≤ a → a ≤ s.I.toNat + x.val → u.byteAt a = t.byteAt a) →
      ∃ w, exec (.ldRegs x) u = .next w ∧ w.stepResult = .ok ∧ ∀ k : Reg, k ≤ x → w.reg k = s.reg k) ∧
    (exec (.ldB x) s = .next t → t.stepResult = .ok →
      (∀ a, s.I.toNat ≤ a → a ≤ s.I.toNat + 2 → u.byteAt a = t.byteAt a) →
      ∃ w, exec (.ldRegs 2) u = .next w ∧ w.stepResult = .ok ∧
        100 * (w.reg 0).toNat + 10 * (w.reg 1).toNat + (w.reg 2).toNat = (s.reg x).toNat ∧
        (w.reg 1).toNat < 10 ∧ (w.reg 2).toNat < 10)

/-- R64 and R271: a word whose two bytes one FX55 stored (those of Vk and of the register after it), or one FX33 (the hundreds
and tens digits, or the tens and ones), is fetched as stored by the next STEP at its address, whether or not the transfer
faulted after storing it. -/
def Obligations.StoredCodeIsFetched : Prop :=
  ∀ (s t u : State) (x : Reg) (k : Nat), s.mem.wf = true → s.effAddr (k + 1) ≤ 0xFFF →
    u = t.setPc (BitVec.ofNat 16 (s.effAddr k)) →
    (∀ h : k + 1 < 16, exec (.stRegs x) s = .next t → k + 1 ≤ x.val →
      ∃ op, u.fetch = some op ∧ op.toNat = 256 * (s.reg ⟨k, by omega⟩).toNat + (s.reg ⟨k + 1, h⟩).toNat) ∧
    (exec (.ldB x) s = .next t →
      (k = 0 → ∃ op, u.fetch = some op ∧ op.toNat = 256 * ((s.reg x).toNat / 100) + (s.reg x).toNat / 10 % 10) ∧
      (k = 1 → ∃ op, u.fetch = some op ∧ op.toNat = 256 * ((s.reg x).toNat / 10 % 10) + (s.reg x).toNat % 10))

/-! ### Display -/

/-- R191: CLS clears every pixel and writes nothing else, VF included. -/
def Obligations.ClearDisplay : Prop :=
  ∀ s : State, ∃ t, exec .cls s = .next t ∧ t.stepResult = .ok ∧ (∀ row col, pixel t.fb row col = false) ∧
    SameExcept [.fb, .stepResult] s t

/-- R192: DXYN flips exactly the pixels the sprite's 1 bits address, with wrap, and VF is 1 exactly when one of them was 1;
where a row address is above 0xFFF the rows before it are drawn, VF is 0 and MemoryBoundsError is reported. -/
def Obligations.DrawSprite : Prop :=
  ∀ (s : State) (x y : Reg) (n : Fin 16),
    ∃ t, exec (.drw x y n) s = .next t ∧
      (n.val = 0 ∨ s.effAddr n.val ≤ 0x1000 → t.stepResult = .ok ∧
        ((∃ row col, SpriteBit s x y n.val row col ∧ pixel s.fb row col = true) → (t.reg VF).toNat = 1) ∧
        (¬ (∃ row col, SpriteBit s x y n.val row col ∧ pixel s.fb row col = true) → (t.reg VF).toNat = 0)) ∧
      (n.val ≠ 0 → 0x1000 < s.effAddr n.val →
        t.stepResult = .fault (.memoryBoundsError (max s.I.toNat 0x1000)) (s.pc - 2) (encode (.drw x y n)) ∧
        (t.reg VF).toNat = 0) ∧
      (∀ row col,
        (SpriteBit s x y (min n.val (0x1000 - s.I.toNat)) row col → pixel t.fb row col = !pixel s.fb row col) ∧
        (¬ SpriteBit s x y (min n.val (0x1000 - s.I.toNat)) row col → pixel t.fb row col = pixel s.fb row col)) ∧
      RegsSameExcept (· = VF) s t ∧ SameExcept [.fb, .v, .stepResult] s t

/-- Drawing the same sprite at the same place twice restores the framebuffer; the second draw sets VF to 1 exactly when the
first one turned a pixel on (some pixel of the sprite was 0 before). What R192 gives; R193 (a) says less exactly (log 14). -/
def Obligations.DrawTwiceRestores : Prop :=
  ∀ (s t u : State) (x y x' y' : Reg) (n : Fin 16), exec (.drw x y n) s = .next t → t.stepResult = .ok →
    u.fb = t.fb → u.I = s.I → u.reg x' = s.reg x → u.reg y' = s.reg y →
    (∀ r, r < n.val → u.byteAt (s.I.toNat + r) = s.byteAt (s.I.toNat + r)) →
    ∃ w, exec (.drw x' y' n) u = .next w ∧ w.stepResult = .ok ∧ w.fb = s.fb ∧
      ((∃ row col, SpriteBit s x y n.val row col ∧ pixel s.fb row col = false) → (w.reg VF).toNat = 1) ∧
      (¬ (∃ row col, SpriteBit s x y n.val row col ∧ pixel s.fb row col = false) → (w.reg VF).toNat = 0)

/-- R193 (a) word for word in its premises: a sprite with a 1 bit, drawn twice at the same place, both draws completing, sets
VF to 1 on the second draw. It FAILS under R192: where every pixel of the sprite was 1 before the first draw, that draw turns
them all off and the second meets no pixel that is 1 (log 14). -/
def Obligations.SecondDrawAlwaysCollides : Prop :=
  ∀ (s t u w : State) (x y x' y' : Reg) (n : Fin 16), exec (.drw x y n) s = .next t → t.stepResult = .ok →
    u.fb = t.fb → u.I = s.I → u.reg x' = s.reg x → u.reg y' = s.reg y →
    (∀ r, r < n.val → u.byteAt (s.I.toNat + r) = s.byteAt (s.I.toNat + r)) →
    exec (.drw x' y' n) u = .next w → w.stepResult = .ok →
    (∃ r, r < n.val ∧ s.byteAt (s.I.toNat + r) ≠ 0) → (w.reg VF).toNat = 1

/-! ### Keypad and timers -/

/-- R214, R216 and R217: FX07 reads DT into Vx; FX15 and FX18 write DT and ST with Vx; nothing else is written. -/
def Obligations.TimerTransfers : Prop :=
  ∀ (s : State) (x : Reg),
    (∃ t, exec (.ldVxDt x) s = .next t ∧ t.stepResult = .ok ∧ t.reg x = s.dt ∧ RegsSameExcept (· = x) s t ∧
      SameExcept [.v, .stepResult] s t) ∧
    (∃ t, exec (.ldDtVx x) s = .next t ∧ t.stepResult = .ok ∧ t.dt = s.reg x ∧ SameExcept [.dt, .stepResult] s t) ∧
    (∃ t, exec (.ldStVx x) s = .next t ∧ t.stepResult = .ok ∧ t.st = s.reg x ∧ SameExcept [.st, .stepResult] s t)

/-- R215: FX0A stores the lowest pressed key in Vx; with no key pressed it moves pc back by 2 and writes nothing else, so the
same word is fetched again. -/
def Obligations.KeyWait : Prop :=
  ∀ (s : State) (x : Reg),
    (∀ k : Key, s.keypad[k] = true → (∀ j : Key, j < k → s.keypad[j] = false) →
      ∃ t, exec (.ldVxK x) s = .next t ∧ t.stepResult = .ok ∧ (t.reg x).toNat = k.val ∧ RegsSameExcept (· = x) s t ∧
        SameExcept [.v, .stepResult] s t) ∧
    ((∀ k : Key, s.keypad[k] = false) →
      ∃ t, exec (.ldVxK x) s = .next t ∧ t.stepResult = .ok ∧ t.pc = s.pc - 2 ∧ SameExcept [.pc, .stepResult] s t)

/-- The two ways a program stops changing the state: a STEP of FX0A with no key pressed (R34, R215) and a STEP of a jump to
itself (R102) leave every piece of the spec's state, pc included, as it was, but for `step_result`, which is OK. -/
def Obligations.WaitingStepsChangeNothing : Prop :=
  ∀ (s : State) (op : Word) (i : Instr) (b : Byte) (rest : List Operation), s.pc.toNat ≤ 0xFFE → s.fetch = some op →
    decode op = some i → s.pending = .step b :: rest →
    ((∃ x, i = .ldVxK x) ∧ (∀ k : Key, s.keypad[k] = false)) ∨ (∃ nnn, i = .jp nnn ∧ nnn.toNat = s.pc.toNat) →
    ∃ t, step s = .next t ∧ t.stepResult = .ok ∧ t.pending = rest ∧ SameExcept [.stepResult, .randByte, .pending] s t

/-! ### Whole-machine rules -/

/-- R38: an instruction writes the parts and the registers its row of the access summary names, and nothing else but
`step_result`, whether it completes or faults. -/
def Obligations.InstructionWrites : Prop :=
  ∀ (i : Instr) (s t : State), exec i s = .next t →
    SameExcept (.stepResult :: Instr.writes i) s t ∧ RegsSameExcept (Instr.writesReg i) s t

/-- R231 and R232: which instructions report which fault kind, with the word and the fetch address as information, and a
MemoryBoundsError only for an address above 0xFFF. -/
def Obligations.FaultKindsByInstruction : Prop :=
  ∀ (i : Instr) (s t : State), exec i s = .next t → t.stepResult ≠ .ok →
    ∃ k, t.stepResult = .fault k (s.pc - 2) (encode i) ∧
      ((k = .stackUnderflow ∧ i = .ret) ∨ (k = .stackOverflow ∧ ∃ nnn, i = .call nnn) ∨
       (∃ a, k = .memoryBoundsError a ∧ 0xFFF < a ∧
         ((∃ x y n, i = .drw x y n) ∨ ∃ x, i = .ldB x ∨ i = .stRegs x ∨ i = .ldRegs x)))

/-- R36: no operation reads `step_result` or `load_result`, and each is overwritten by the operation of its kind. From a state
that differs in the two, a STEP ends in the same state but for `load_result`, a LOAD but for `step_result`, a TICK and a
SET_KEY but for both, and a RESET in the same state. -/
def Obligations.ResultsAreNotRead : Prop :=
  ∀ (op : Operation) (s t : State) (r : StepResult) (l : LoadResult), perform op s = .next t →
    perform op ((s.setStepResult r).setLoadResult l) = .next
      (match op with
       | .reset => t
       | .load _ => t.setStepResult r
       | .step _ => t.setLoadResult l
       | .tick | .setKey _ _ => (t.setStepResult r).setLoadResult l)

/-- No instruction reads ST (R30): from a state with another ST, every instruction ends in the same state but for ST, and
FX18 in the same state. -/
def Obligations.SoundTimerIsNotRead : Prop :=
  ∀ (i : Instr) (s t : State) (b : Byte), exec i s = .next t →
    ((∃ x, i = .ldStVx x) → exec i (s.setSt b) = .next t) ∧
    ((∀ x, i ≠ .ldStVx x) → exec i (s.setSt b) = .next (t.setSt b))

/-! ### Parameters -/

/-- R7: the value of each parameter of this hardware that R7 gives one (the font's bytes: log 6; KEY_INDEX_POLICY, RAND and the
rates are open), and that `exec` and `step` are the machine of this configuration. -/
def Obligations.HardwareConfiguration : Prop :=
  Config.hw.memSize = 4096 ∧ Config.hw.numV = 16 ∧ Config.hw.pcWidth = 16 ∧ Config.hw.iWidth = 16 ∧
  Config.hw.stackDepth = 16 ∧ Config.hw.stackEntryWidth = 16 ∧ Config.hw.fbW = 64 ∧ Config.hw.fbH = 32 ∧
  Config.hw.numKeys = 16 ∧ Config.hw.fontBase = 0x050 ∧ Config.hw.font.length = 80 ∧ Config.hw.programBase = 0x200 ∧
  Config.hw.shiftSource = .vy ∧
  (∀ (i : Instr) (s : State), exec i s = execUnder i s) ∧ (∀ s : State, step s = performNext s)

/-- R7: the machine of any configuration follows its parameters: the bound of a memory access (R52), the reset pc, the place of
the font (R194), the capacity of the stack (R103), the wrap of I (R172), the shifted register (R139), the key test (R211), the
wrap of the display (R190) and the bound of LOAD (R265). How a parameter enters a rule that names this hardware's constant is the
model's reading (log 16). The last clause is the model's choice, not a rule's: with no operation pending a step is a STEP, which
the host has not asked for (log 1), with the free byte `p.rand` gives for the count `draws`, which goes up by one (log 2).
ParametersGovernAccesses says of instructions what the clauses of `memRead`, `spriteCol` and `spriteRow` say of those
operations. -/
def Obligations.ParametersGovern : Prop :=
  ∀ (p : Config.Params) (s : State p) (x y : Reg) (nnn : Addr) (rom : List Byte) (rest : List (Operation p)),
    (∀ a, s.memRead a = none ↔ p.memSize ≤ a) ∧
    (State.resetOf p).pc.toNat = p.programBase ∧
    (∀ k, k < p.font.length → (State.resetOf p).byteAt (p.fontBase + k) = p.font.getD k 0) ∧
    (s.stack.length < p.stackDepth → ∃ t, execUnder (.call nnn) s = .next t ∧ t.stepResult = .ok ∧
      t.pc.toNat = nnn.toNat ∧ t.stack = s.stack ++ [s.pc.setWidth p.stackEntryWidth]) ∧
    (p.stackDepth ≤ s.stack.length → ∃ t, execUnder (.call nnn) s = .next t ∧
      t.stepResult = .fault .stackOverflow (s.pc - 2) (encode (.call nnn)) ∧ t.pc = s.pc ∧ t.stack = s.stack) ∧
    (∃ t, execUnder (.ldF x) s = .next t ∧ t.stepResult = .ok ∧ t.I.toNat = p.fontBase + 5 * (s.reg x).toNat) ∧
    (∃ t, execUnder (.addI x) s = .next t ∧ t.stepResult = .ok ∧
      t.I.toNat = (s.I.toNat + (s.reg x).toNat) % p.memSize) ∧
    (∃ t, execUnder (.shrReg x y) s = .next t ∧ t.stepResult = .ok ∧
      (p.shiftSource = .vx → (t.reg VF).toNat = (s.reg x).toNat % 2) ∧
      (p.shiftSource = .vy → (t.reg VF).toNat = (s.reg y).toNat % 2)) ∧
    (p.numKeys ≤ (s.reg x).toNat → ∃ t, execUnder (.skp x) s = .next t ∧ t.stepResult = .ok ∧
      (p.keyIndexPolicy = .notPressed → t.pc = s.pc) ∧
      (p.keyIndexPolicy = .maskLowNibble →
        t.pc = if s.keypad[lowNibbleKey (s.reg x) p] = true then s.pc + 2 else s.pc)) ∧
    (∀ b, (spriteCol (s.reg x).toNat b p).val = ((s.reg x).toNat + b) % p.fbW ∧
      (spriteRow (s.reg y).toNat b p).val = ((s.reg y).toNat + b) % p.fbH) ∧
    (s.pending = .load rom :: rest →
      ∃ t, performNext s = .next t ∧ (t.loadResult = .ok ↔ p.programBase + rom.length ≤ p.memSize)) ∧
    (s.pending = [] → performNext s = opStep (p.rand s.draws) (s.setDraws (s.draws + 1)))

/-- R7: under any configuration the transfers and the draw follow `MEM_SIZE`, `FB_W` and `FB_H` (log 16). FX33, FX55 and FX65
complete when their last address, and DXYN when its last row address, is below `MEM_SIZE`; past it they report
MemoryBoundsError at the first address from `MEM_SIZE` on (R52, R53, R232). A DXYN in bounds whose sprite has one 1 bit, bit
7 - b of row r, flips the one pixel at row (Vy + r) mod `FB_H` and column (Vx + b) mod `FB_W`, and VF is 1 exactly when that pixel
was 1 (R190, R192). -/
def Obligations.ParametersGovernAccesses : Prop :=
  ∀ (p : Config.Params) (s : State p) (x y : Reg) (n : Fin 16),
    (∀ (i : Instr) (k : Nat), (i = .ldB x ∧ k = 3) ∨ (i = .stRegs x ∧ k = x.val + 1) ∨ (i = .ldRegs x ∧ k = x.val + 1) ∨
        (i = .drw x y n ∧ k = n.val ∧ n.val ≠ 0) →
      (s.effAddr k ≤ p.memSize → ∃ t, execUnder i s = .next t ∧ t.stepResult = .ok) ∧
      (p.memSize < s.effAddr k → ∃ t, execUnder i s = .next t ∧
        t.stepResult = .fault (.memoryBoundsError (max s.I.toNat p.memSize)) (s.pc - 2) (encode i))) ∧
    (∀ r b, r < n.val → b < 8 → s.effAddr n.val ≤ p.memSize →
      (∀ k, k < n.val → s.byteAt (s.effAddr k) = if k = r then (0x80 : Byte) >>> b else 0) →
      ∃ t, execUnder (.drw x y n) s = .next t ∧ t.stepResult = .ok ∧
        ∀ row col, (row.val = ((s.reg y).toNat + r) % p.fbH ∧ col.val = ((s.reg x).toNat + b) % p.fbW →
            pixel t.fb row col = !pixel s.fb row col ∧ (t.reg VF).toNat = if pixel s.fb row col = true then 1 else 0) ∧
          (¬ (row.val = ((s.reg y).toNat + r) % p.fbH ∧ col.val = ((s.reg x).toNat + b) % p.fbW) →
            pixel t.fb row col = pixel s.fb row col))
end

