-- ==== Sys2Proof/Laws/Memory.lean ====
section
/-! SUPPORT. Memory as data: a read after a write, and every memory operation keeps the canonical form. -/

namespace Sys2Proof.Machine.Memory

/-! ### What an unlisted address reads as -/

theorem font_length : Config.font.length = 80 := rfl

/-- The font bytes (20_memory.md R58). -/
theorem unlisted_font (k : Nat) : unlisted (0x050 + k) = Config.font.getD k 0 := by
  rw [unlisted, Config.hw_fontBase, if_pos (Nat.le_add_right _ _), Nat.add_sub_cancel_left]

/-- Zero outside the font (10_state.md R37). -/
theorem unlisted_outside {a : Nat} (h : a < 0x050 ∨ 0x0A0 ≤ a) : unlisted a = 0 := by
  rw [unlisted, Config.hw_fontBase, Config.hw_font]
  split
  · have hlen : Config.font.length ≤ a - 0x050 := by rw [font_length]; omega
    rw [List.getD_eq_getElem?_getD, List.getElem?_eq_none hlen]
    rfl
  · rfl

/-! ### The canonical form -/

theorem wfFrom_cons {lo k : Nat} {b : Byte} {m : Memory} :
    wfFrom lo ((k, b) :: m) = true ↔
      lo ≤ k ∧ k < 4096 ∧ b ≠ unlisted k ∧ wfFrom (k + 1) m = true := by
  simp only [wfFrom, Bool.and_eq_true, decide_eq_true_iff, and_assoc]

theorem wfFrom_mono {lo lo' : Nat} (h : lo' ≤ lo) {m : Memory} (hm : wfFrom lo m = true) : wfFrom lo' m = true := by
  cases m with
  | nil => rfl
  | cons c m =>
    obtain ⟨k, b⟩ := c
    rw [wfFrom_cons] at hm ⊢
    exact ⟨Nat.le_trans h hm.1, hm.2⟩

/-- Below where a canonical list starts nothing is listed. -/
theorem read_below {lo a : Nat} (h : a < lo) {m : Memory} (hm : wfFrom lo m = true) : read m a = unlisted a := by
  induction m generalizing lo with
  | nil => rfl
  | cons c m ih =>
    obtain ⟨k, b⟩ := c
    rw [wfFrom_cons] at hm
    rw [read, if_neg (by omega)]
    exact ih (lo := k + 1) (by omega) hm.2.2.2

theorem read_consUnlessDefault_same {lo a : Nat} (h : a < lo) {m : Memory} (hm : wfFrom lo m = true) (v : Byte) :
    read (consUnlessDefault a v m) a = v := by
  unfold consUnlessDefault
  split
  · next e => rw [read_below h hm, e]
  · simp [read]

theorem read_consUnlessDefault_other {a i : Nat} (h : i ≠ a) (m : Memory) (v : Byte) :
    read (consUnlessDefault a v m) i = read m i := by
  unfold consUnlessDefault
  split
  · rfl
  · rw [read, if_neg (Ne.symm h)]

theorem wfFrom_consUnlessDefault {lo a : Nat} (ha : lo ≤ a) (hs : a < 4096) {m : Memory}
    (hm : wfFrom (a + 1) m = true) (v : Byte) : wfFrom lo (consUnlessDefault a v m) = true := by
  unfold consUnlessDefault
  split
  · exact wfFrom_mono (by omega) hm
  · next h => exact wfFrom_cons.mpr ⟨ha, hs, h, hm⟩

/-- A write leaves every other address alone, whatever the list. -/
theorem read_write_other {a i : Nat} (h : i ≠ a) (m : Memory) (v : Byte) : read (write m a v) i = read m i := by
  induction m with
  | nil => exact read_consUnlessDefault_other h [] v
  | cons c m ih =>
    obtain ⟨k, b⟩ := c
    rw [write]
    split
    · exact read_consUnlessDefault_other h _ v
    · split
      · next e =>
        rw [read_consUnlessDefault_other h, read, if_neg (by omega)]
      · simp only [read, ih]

theorem read_write_sameFrom {lo : Nat} {m : Memory} (hm : wfFrom lo m = true) (a : Nat) (v : Byte) :
    read (write m a v) a = v := by
  induction m generalizing lo with
  | nil => exact read_consUnlessDefault_same (Nat.lt_succ_self a) rfl v
  | cons c m ih =>
    obtain ⟨k, b⟩ := c
    have hc := wfFrom_cons.mp hm
    rw [write]
    split
    · next h => exact read_consUnlessDefault_same (lo := k) h (wfFrom_cons.mpr ⟨Nat.le_refl _, hc.2⟩) v
    · split
      · next e => exact read_consUnlessDefault_same (lo := k + 1) (by omega) hc.2.2.2 v
      · next h => rw [read, if_neg (Ne.symm h)]; exact ih hc.2.2.2

/-- A read after a write to the same address gives the byte written. -/
theorem read_write_same {m : Memory} (hm : wf m = true) (a : Nat) (v : Byte) : read (write m a v) a = v :=
  read_write_sameFrom hm a v

theorem wfFrom_write {lo a : Nat} (ha : lo ≤ a) (hs : a < 4096) {m : Memory} (hm : wfFrom lo m = true)
    (v : Byte) : wfFrom lo (write m a v) = true := by
  induction m generalizing lo with
  | nil => exact wfFrom_consUnlessDefault ha hs rfl v
  | cons c m ih =>
    obtain ⟨k, b⟩ := c
    have hc := wfFrom_cons.mp hm
    rw [write]
    split
    · next h =>
      exact wfFrom_consUnlessDefault ha hs (wfFrom_cons.mpr ⟨h, hc.2⟩) v
    · split
      · next e => subst e; exact wfFrom_consUnlessDefault ha hs hc.2.2.2 v
      · next h1 h2 => exact wfFrom_cons.mpr ⟨hc.1, hc.2.1, hc.2.2.1, ih (by omega) hc.2.2.2⟩

/-- A write to an address of the machine keeps the canonical form. -/
theorem wf_write {m : Memory} (hm : wf m = true) {a : Nat} (hs : a < 4096) (v : Byte) :
    wf (write m a v) = true :=
  wfFrom_write (Nat.zero_le a) hs hm v

theorem read_writeBytes_outside (bs : List Byte) {a i : Nat} (h : i < a ∨ a + bs.length ≤ i) (m : Memory) :
    read (writeBytes bs a m) i = read m i := by
  induction bs generalizing a m with
  | nil => rfl
  | cons b bs ih =>
    simp only [List.length_cons] at h
    rw [writeBytes, ih (by omega), read_write_other (by omega)]

/-- Writing bytes inside the machine's addresses keeps the canonical form. -/
theorem wf_writeBytes {bs : List Byte} {a : Nat} (h : a + bs.length ≤ 4096) {m : Memory} (hm : wf m = true) :
    wf (writeBytes bs a m) = true := by
  induction bs generalizing a m with
  | nil => exact hm
  | cons b bs ih =>
    simp only [List.length_cons] at h
    exact ih (by omega) (wf_write hm (by omega) b)

theorem read_writeBytes_inside {bs : List Byte} {a : Nat} (h : a + bs.length ≤ 4096) {m : Memory}
    (hm : wf m = true) {k : Nat} (hk : k < bs.length) : read (writeBytes bs a m) (a + k) = bs[k] := by
  induction bs generalizing a m k with
  | nil => simp at hk
  | cons b bs ih =>
    simp only [List.length_cons] at h hk
    have hw := wf_write hm (a := a) (by omega) b
    cases k with
    | zero => rw [writeBytes, read_writeBytes_outside bs (by omega)]; exact read_write_same hm a b
    | succ k =>
      have := ih (a := a + 1) (by omega) hw (k := k) (by omega)
      rw [writeBytes, show a + (k + 1) = a + 1 + k by omega, this]
      rfl

/-- Reset memory is canonical. -/
theorem wf_reset : wf State.reset.mem = true := rfl

end Sys2Proof.Machine.Memory
end

