-- ==== Sys2Proof/Laws/State.lean ====
section
/-! SUPPORT. What each update of a state field leaves in each field: one lemma per field per update, so that no proof unfolds
a record update. The updates that go through a setter (`setReg`, `advance`, `setFlag`, `setRegFlag`) follow. -/

namespace Sys2Proof.Machine

/-! ### The state after reset -/

@[simp] theorem State.reset_mem : State.reset.mem = [] := rfl
@[simp] theorem State.reset_pc : State.reset.pc = 0x200 := rfl
@[simp] theorem State.reset_I : State.reset.I = 0 := rfl
@[simp] theorem State.reset_v : State.reset.v = Vector.replicate 16 0 := rfl
@[simp] theorem State.reset_stack : State.reset.stack = [] := rfl
@[simp] theorem State.reset_dt : State.reset.dt = 0 := rfl
@[simp] theorem State.reset_st : State.reset.st = 0 := rfl
@[simp] theorem State.reset_fb : State.reset.fb = blankFb := rfl
@[simp] theorem State.reset_keypad : State.reset.keypad = Vector.replicate 16 false := rfl
@[simp] theorem State.reset_stepResult : State.reset.stepResult = .ok := rfl
@[simp] theorem State.reset_loadResult : State.reset.loadResult = .ok := rfl
@[simp] theorem State.reset_randByte : State.reset.randByte = 0 := rfl
@[simp] theorem State.reset_draws : State.reset.draws = 0 := rfl
@[simp] theorem State.reset_pending : State.reset.pending = [] := rfl

variable {p : Config.Params} (s : State p)

/-! ### `setMem` -/

section
variable (m : Memory)
@[simp] theorem State.setMem_mem : (s.setMem m).mem = m := rfl
@[simp] theorem State.setMem_pc : (s.setMem m).pc = s.pc := rfl
@[simp] theorem State.setMem_I : (s.setMem m).I = s.I := rfl
@[simp] theorem State.setMem_v : (s.setMem m).v = s.v := rfl
@[simp] theorem State.setMem_stack : (s.setMem m).stack = s.stack := rfl
@[simp] theorem State.setMem_dt : (s.setMem m).dt = s.dt := rfl
@[simp] theorem State.setMem_st : (s.setMem m).st = s.st := rfl
@[simp] theorem State.setMem_fb : (s.setMem m).fb = s.fb := rfl
@[simp] theorem State.setMem_keypad : (s.setMem m).keypad = s.keypad := rfl
@[simp] theorem State.setMem_stepResult : (s.setMem m).stepResult = s.stepResult := rfl
@[simp] theorem State.setMem_loadResult : (s.setMem m).loadResult = s.loadResult := rfl
@[simp] theorem State.setMem_randByte : (s.setMem m).randByte = s.randByte := rfl
@[simp] theorem State.setMem_draws : (s.setMem m).draws = s.draws := rfl
@[simp] theorem State.setMem_pending : (s.setMem m).pending = s.pending := rfl
end

/-! ### `setPc` -/

section
variable (a : BitVec p.pcWidth)
@[simp] theorem State.setPc_mem : (s.setPc a).mem = s.mem := rfl
@[simp] theorem State.setPc_pc : (s.setPc a).pc = a := rfl
@[simp] theorem State.setPc_I : (s.setPc a).I = s.I := rfl
@[simp] theorem State.setPc_v : (s.setPc a).v = s.v := rfl
@[simp] theorem State.setPc_stack : (s.setPc a).stack = s.stack := rfl
@[simp] theorem State.setPc_dt : (s.setPc a).dt = s.dt := rfl
@[simp] theorem State.setPc_st : (s.setPc a).st = s.st := rfl
@[simp] theorem State.setPc_fb : (s.setPc a).fb = s.fb := rfl
@[simp] theorem State.setPc_keypad : (s.setPc a).keypad = s.keypad := rfl
@[simp] theorem State.setPc_stepResult : (s.setPc a).stepResult = s.stepResult := rfl
@[simp] theorem State.setPc_loadResult : (s.setPc a).loadResult = s.loadResult := rfl
@[simp] theorem State.setPc_randByte : (s.setPc a).randByte = s.randByte := rfl
@[simp] theorem State.setPc_draws : (s.setPc a).draws = s.draws := rfl
@[simp] theorem State.setPc_pending : (s.setPc a).pending = s.pending := rfl
end

/-! ### `setI` -/

section
variable (a : BitVec p.iWidth)
@[simp] theorem State.setI_mem : (s.setI a).mem = s.mem := rfl
@[simp] theorem State.setI_pc : (s.setI a).pc = s.pc := rfl
@[simp] theorem State.setI_I : (s.setI a).I = a := rfl
@[simp] theorem State.setI_v : (s.setI a).v = s.v := rfl
@[simp] theorem State.setI_stack : (s.setI a).stack = s.stack := rfl
@[simp] theorem State.setI_dt : (s.setI a).dt = s.dt := rfl
@[simp] theorem State.setI_st : (s.setI a).st = s.st := rfl
@[simp] theorem State.setI_fb : (s.setI a).fb = s.fb := rfl
@[simp] theorem State.setI_keypad : (s.setI a).keypad = s.keypad := rfl
@[simp] theorem State.setI_stepResult : (s.setI a).stepResult = s.stepResult := rfl
@[simp] theorem State.setI_loadResult : (s.setI a).loadResult = s.loadResult := rfl
@[simp] theorem State.setI_randByte : (s.setI a).randByte = s.randByte := rfl
@[simp] theorem State.setI_draws : (s.setI a).draws = s.draws := rfl
@[simp] theorem State.setI_pending : (s.setI a).pending = s.pending := rfl
end

/-! ### `setV` -/

section
variable (w : Vector Byte p.numV)
@[simp] theorem State.setV_mem : (s.setV w).mem = s.mem := rfl
@[simp] theorem State.setV_pc : (s.setV w).pc = s.pc := rfl
@[simp] theorem State.setV_I : (s.setV w).I = s.I := rfl
@[simp] theorem State.setV_v : (s.setV w).v = w := rfl
@[simp] theorem State.setV_stack : (s.setV w).stack = s.stack := rfl
@[simp] theorem State.setV_dt : (s.setV w).dt = s.dt := rfl
@[simp] theorem State.setV_st : (s.setV w).st = s.st := rfl
@[simp] theorem State.setV_fb : (s.setV w).fb = s.fb := rfl
@[simp] theorem State.setV_keypad : (s.setV w).keypad = s.keypad := rfl
@[simp] theorem State.setV_stepResult : (s.setV w).stepResult = s.stepResult := rfl
@[simp] theorem State.setV_loadResult : (s.setV w).loadResult = s.loadResult := rfl
@[simp] theorem State.setV_randByte : (s.setV w).randByte = s.randByte := rfl
@[simp] theorem State.setV_draws : (s.setV w).draws = s.draws := rfl
@[simp] theorem State.setV_pending : (s.setV w).pending = s.pending := rfl
end

/-! ### `setStack` -/

section
variable (l : List (BitVec p.stackEntryWidth))
@[simp] theorem State.setStack_mem : (s.setStack l).mem = s.mem := rfl
@[simp] theorem State.setStack_pc : (s.setStack l).pc = s.pc := rfl
@[simp] theorem State.setStack_I : (s.setStack l).I = s.I := rfl
@[simp] theorem State.setStack_v : (s.setStack l).v = s.v := rfl
@[simp] theorem State.setStack_stack : (s.setStack l).stack = l := rfl
@[simp] theorem State.setStack_dt : (s.setStack l).dt = s.dt := rfl
@[simp] theorem State.setStack_st : (s.setStack l).st = s.st := rfl
@[simp] theorem State.setStack_fb : (s.setStack l).fb = s.fb := rfl
@[simp] theorem State.setStack_keypad : (s.setStack l).keypad = s.keypad := rfl
@[simp] theorem State.setStack_stepResult : (s.setStack l).stepResult = s.stepResult := rfl
@[simp] theorem State.setStack_loadResult : (s.setStack l).loadResult = s.loadResult := rfl
@[simp] theorem State.setStack_randByte : (s.setStack l).randByte = s.randByte := rfl
@[simp] theorem State.setStack_draws : (s.setStack l).draws = s.draws := rfl
@[simp] theorem State.setStack_pending : (s.setStack l).pending = s.pending := rfl
end

/-! ### `setDt` -/

section
variable (b : Byte)
@[simp] theorem State.setDt_mem : (s.setDt b).mem = s.mem := rfl
@[simp] theorem State.setDt_pc : (s.setDt b).pc = s.pc := rfl
@[simp] theorem State.setDt_I : (s.setDt b).I = s.I := rfl
@[simp] theorem State.setDt_v : (s.setDt b).v = s.v := rfl
@[simp] theorem State.setDt_stack : (s.setDt b).stack = s.stack := rfl
@[simp] theorem State.setDt_dt : (s.setDt b).dt = b := rfl
@[simp] theorem State.setDt_st : (s.setDt b).st = s.st := rfl
@[simp] theorem State.setDt_fb : (s.setDt b).fb = s.fb := rfl
@[simp] theorem State.setDt_keypad : (s.setDt b).keypad = s.keypad := rfl
@[simp] theorem State.setDt_stepResult : (s.setDt b).stepResult = s.stepResult := rfl
@[simp] theorem State.setDt_loadResult : (s.setDt b).loadResult = s.loadResult := rfl
@[simp] theorem State.setDt_randByte : (s.setDt b).randByte = s.randByte := rfl
@[simp] theorem State.setDt_draws : (s.setDt b).draws = s.draws := rfl
@[simp] theorem State.setDt_pending : (s.setDt b).pending = s.pending := rfl
end

/-! ### `setSt` -/

section
variable (b : Byte)
@[simp] theorem State.setSt_mem : (s.setSt b).mem = s.mem := rfl
@[simp] theorem State.setSt_pc : (s.setSt b).pc = s.pc := rfl
@[simp] theorem State.setSt_I : (s.setSt b).I = s.I := rfl
@[simp] theorem State.setSt_v : (s.setSt b).v = s.v := rfl
@[simp] theorem State.setSt_stack : (s.setSt b).stack = s.stack := rfl
@[simp] theorem State.setSt_dt : (s.setSt b).dt = s.dt := rfl
@[simp] theorem State.setSt_st : (s.setSt b).st = b := rfl
@[simp] theorem State.setSt_fb : (s.setSt b).fb = s.fb := rfl
@[simp] theorem State.setSt_keypad : (s.setSt b).keypad = s.keypad := rfl
@[simp] theorem State.setSt_stepResult : (s.setSt b).stepResult = s.stepResult := rfl
@[simp] theorem State.setSt_loadResult : (s.setSt b).loadResult = s.loadResult := rfl
@[simp] theorem State.setSt_randByte : (s.setSt b).randByte = s.randByte := rfl
@[simp] theorem State.setSt_draws : (s.setSt b).draws = s.draws := rfl
@[simp] theorem State.setSt_pending : (s.setSt b).pending = s.pending := rfl
end

/-! ### `setFb` -/

section
variable (f : Framebuffer p)
@[simp] theorem State.setFb_mem : (s.setFb f).mem = s.mem := rfl
@[simp] theorem State.setFb_pc : (s.setFb f).pc = s.pc := rfl
@[simp] theorem State.setFb_I : (s.setFb f).I = s.I := rfl
@[simp] theorem State.setFb_v : (s.setFb f).v = s.v := rfl
@[simp] theorem State.setFb_stack : (s.setFb f).stack = s.stack := rfl
@[simp] theorem State.setFb_dt : (s.setFb f).dt = s.dt := rfl
@[simp] theorem State.setFb_st : (s.setFb f).st = s.st := rfl
@[simp] theorem State.setFb_fb : (s.setFb f).fb = f := rfl
@[simp] theorem State.setFb_keypad : (s.setFb f).keypad = s.keypad := rfl
@[simp] theorem State.setFb_stepResult : (s.setFb f).stepResult = s.stepResult := rfl
@[simp] theorem State.setFb_loadResult : (s.setFb f).loadResult = s.loadResult := rfl
@[simp] theorem State.setFb_randByte : (s.setFb f).randByte = s.randByte := rfl
@[simp] theorem State.setFb_draws : (s.setFb f).draws = s.draws := rfl
@[simp] theorem State.setFb_pending : (s.setFb f).pending = s.pending := rfl
end

/-! ### `setKeypad` -/

section
variable (k : Vector Bool p.numKeys)
@[simp] theorem State.setKeypad_mem : (s.setKeypad k).mem = s.mem := rfl
@[simp] theorem State.setKeypad_pc : (s.setKeypad k).pc = s.pc := rfl
@[simp] theorem State.setKeypad_I : (s.setKeypad k).I = s.I := rfl
@[simp] theorem State.setKeypad_v : (s.setKeypad k).v = s.v := rfl
@[simp] theorem State.setKeypad_stack : (s.setKeypad k).stack = s.stack := rfl
@[simp] theorem State.setKeypad_dt : (s.setKeypad k).dt = s.dt := rfl
@[simp] theorem State.setKeypad_st : (s.setKeypad k).st = s.st := rfl
@[simp] theorem State.setKeypad_fb : (s.setKeypad k).fb = s.fb := rfl
@[simp] theorem State.setKeypad_keypad : (s.setKeypad k).keypad = k := rfl
@[simp] theorem State.setKeypad_stepResult : (s.setKeypad k).stepResult = s.stepResult := rfl
@[simp] theorem State.setKeypad_loadResult : (s.setKeypad k).loadResult = s.loadResult := rfl
@[simp] theorem State.setKeypad_randByte : (s.setKeypad k).randByte = s.randByte := rfl
@[simp] theorem State.setKeypad_draws : (s.setKeypad k).draws = s.draws := rfl
@[simp] theorem State.setKeypad_pending : (s.setKeypad k).pending = s.pending := rfl
end

/-! ### `setStepResult` -/

section
variable (r : StepResult p)
@[simp] theorem State.setStepResult_mem : (s.setStepResult r).mem = s.mem := rfl
@[simp] theorem State.setStepResult_pc : (s.setStepResult r).pc = s.pc := rfl
@[simp] theorem State.setStepResult_I : (s.setStepResult r).I = s.I := rfl
@[simp] theorem State.setStepResult_v : (s.setStepResult r).v = s.v := rfl
@[simp] theorem State.setStepResult_stack : (s.setStepResult r).stack = s.stack := rfl
@[simp] theorem State.setStepResult_dt : (s.setStepResult r).dt = s.dt := rfl
@[simp] theorem State.setStepResult_st : (s.setStepResult r).st = s.st := rfl
@[simp] theorem State.setStepResult_fb : (s.setStepResult r).fb = s.fb := rfl
@[simp] theorem State.setStepResult_keypad : (s.setStepResult r).keypad = s.keypad := rfl
@[simp] theorem State.setStepResult_stepResult : (s.setStepResult r).stepResult = r := rfl
@[simp] theorem State.setStepResult_loadResult : (s.setStepResult r).loadResult = s.loadResult := rfl
@[simp] theorem State.setStepResult_randByte : (s.setStepResult r).randByte = s.randByte := rfl
@[simp] theorem State.setStepResult_draws : (s.setStepResult r).draws = s.draws := rfl
@[simp] theorem State.setStepResult_pending : (s.setStepResult r).pending = s.pending := rfl
end

/-! ### `setLoadResult` -/

section
variable (r : LoadResult)
@[simp] theorem State.setLoadResult_mem : (s.setLoadResult r).mem = s.mem := rfl
@[simp] theorem State.setLoadResult_pc : (s.setLoadResult r).pc = s.pc := rfl
@[simp] theorem State.setLoadResult_I : (s.setLoadResult r).I = s.I := rfl
@[simp] theorem State.setLoadResult_v : (s.setLoadResult r).v = s.v := rfl
@[simp] theorem State.setLoadResult_stack : (s.setLoadResult r).stack = s.stack := rfl
@[simp] theorem State.setLoadResult_dt : (s.setLoadResult r).dt = s.dt := rfl
@[simp] theorem State.setLoadResult_st : (s.setLoadResult r).st = s.st := rfl
@[simp] theorem State.setLoadResult_fb : (s.setLoadResult r).fb = s.fb := rfl
@[simp] theorem State.setLoadResult_keypad : (s.setLoadResult r).keypad = s.keypad := rfl
@[simp] theorem State.setLoadResult_stepResult : (s.setLoadResult r).stepResult = s.stepResult := rfl
@[simp] theorem State.setLoadResult_loadResult : (s.setLoadResult r).loadResult = r := rfl
@[simp] theorem State.setLoadResult_randByte : (s.setLoadResult r).randByte = s.randByte := rfl
@[simp] theorem State.setLoadResult_draws : (s.setLoadResult r).draws = s.draws := rfl
@[simp] theorem State.setLoadResult_pending : (s.setLoadResult r).pending = s.pending := rfl
end

/-! ### `setRandByte` -/

section
variable (b : Byte)
@[simp] theorem State.setRandByte_mem : (s.setRandByte b).mem = s.mem := rfl
@[simp] theorem State.setRandByte_pc : (s.setRandByte b).pc = s.pc := rfl
@[simp] theorem State.setRandByte_I : (s.setRandByte b).I = s.I := rfl
@[simp] theorem State.setRandByte_v : (s.setRandByte b).v = s.v := rfl
@[simp] theorem State.setRandByte_stack : (s.setRandByte b).stack = s.stack := rfl
@[simp] theorem State.setRandByte_dt : (s.setRandByte b).dt = s.dt := rfl
@[simp] theorem State.setRandByte_st : (s.setRandByte b).st = s.st := rfl
@[simp] theorem State.setRandByte_fb : (s.setRandByte b).fb = s.fb := rfl
@[simp] theorem State.setRandByte_keypad : (s.setRandByte b).keypad = s.keypad := rfl
@[simp] theorem State.setRandByte_stepResult : (s.setRandByte b).stepResult = s.stepResult := rfl
@[simp] theorem State.setRandByte_loadResult : (s.setRandByte b).loadResult = s.loadResult := rfl
@[simp] theorem State.setRandByte_randByte : (s.setRandByte b).randByte = b := rfl
@[simp] theorem State.setRandByte_draws : (s.setRandByte b).draws = s.draws := rfl
@[simp] theorem State.setRandByte_pending : (s.setRandByte b).pending = s.pending := rfl
end

/-! ### `setDraws` -/

section
variable (n : Nat)
@[simp] theorem State.setDraws_mem : (s.setDraws n).mem = s.mem := rfl
@[simp] theorem State.setDraws_pc : (s.setDraws n).pc = s.pc := rfl
@[simp] theorem State.setDraws_I : (s.setDraws n).I = s.I := rfl
@[simp] theorem State.setDraws_v : (s.setDraws n).v = s.v := rfl
@[simp] theorem State.setDraws_stack : (s.setDraws n).stack = s.stack := rfl
@[simp] theorem State.setDraws_dt : (s.setDraws n).dt = s.dt := rfl
@[simp] theorem State.setDraws_st : (s.setDraws n).st = s.st := rfl
@[simp] theorem State.setDraws_fb : (s.setDraws n).fb = s.fb := rfl
@[simp] theorem State.setDraws_keypad : (s.setDraws n).keypad = s.keypad := rfl
@[simp] theorem State.setDraws_stepResult : (s.setDraws n).stepResult = s.stepResult := rfl
@[simp] theorem State.setDraws_loadResult : (s.setDraws n).loadResult = s.loadResult := rfl
@[simp] theorem State.setDraws_randByte : (s.setDraws n).randByte = s.randByte := rfl
@[simp] theorem State.setDraws_draws : (s.setDraws n).draws = n := rfl
@[simp] theorem State.setDraws_pending : (s.setDraws n).pending = s.pending := rfl
end

/-! ### `setPending` -/

section
variable (l : List (Operation p))
@[simp] theorem State.setPending_mem : (s.setPending l).mem = s.mem := rfl
@[simp] theorem State.setPending_pc : (s.setPending l).pc = s.pc := rfl
@[simp] theorem State.setPending_I : (s.setPending l).I = s.I := rfl
@[simp] theorem State.setPending_v : (s.setPending l).v = s.v := rfl
@[simp] theorem State.setPending_stack : (s.setPending l).stack = s.stack := rfl
@[simp] theorem State.setPending_dt : (s.setPending l).dt = s.dt := rfl
@[simp] theorem State.setPending_st : (s.setPending l).st = s.st := rfl
@[simp] theorem State.setPending_fb : (s.setPending l).fb = s.fb := rfl
@[simp] theorem State.setPending_keypad : (s.setPending l).keypad = s.keypad := rfl
@[simp] theorem State.setPending_stepResult : (s.setPending l).stepResult = s.stepResult := rfl
@[simp] theorem State.setPending_loadResult : (s.setPending l).loadResult = s.loadResult := rfl
@[simp] theorem State.setPending_randByte : (s.setPending l).randByte = s.randByte := rfl
@[simp] theorem State.setPending_draws : (s.setPending l).draws = s.draws := rfl
@[simp] theorem State.setPending_pending : (s.setPending l).pending = l := rfl
end

/-! ### `setReg` -/

section
variable (x : Reg) (b : Byte)
@[simp] theorem State.setReg_mem : (s.setReg x b).mem = s.mem := rfl
@[simp] theorem State.setReg_pc : (s.setReg x b).pc = s.pc := rfl
@[simp] theorem State.setReg_I : (s.setReg x b).I = s.I := rfl
@[simp] theorem State.setReg_v : (s.setReg x b).v = s.v.set x.val b (reg_lt_numV x) := rfl
@[simp] theorem State.setReg_stack : (s.setReg x b).stack = s.stack := rfl
@[simp] theorem State.setReg_dt : (s.setReg x b).dt = s.dt := rfl
@[simp] theorem State.setReg_st : (s.setReg x b).st = s.st := rfl
@[simp] theorem State.setReg_fb : (s.setReg x b).fb = s.fb := rfl
@[simp] theorem State.setReg_keypad : (s.setReg x b).keypad = s.keypad := rfl
@[simp] theorem State.setReg_stepResult : (s.setReg x b).stepResult = s.stepResult := rfl
@[simp] theorem State.setReg_loadResult : (s.setReg x b).loadResult = s.loadResult := rfl
@[simp] theorem State.setReg_randByte : (s.setReg x b).randByte = s.randByte := rfl
@[simp] theorem State.setReg_draws : (s.setReg x b).draws = s.draws := rfl
@[simp] theorem State.setReg_pending : (s.setReg x b).pending = s.pending := rfl
end

/-! ### `advance`, `setFlag`, `setRegFlag` -/

@[simp] theorem State.advance_mem : s.advance.mem = s.mem := rfl
@[simp] theorem State.advance_pc : s.advance.pc = s.pc + 2 := rfl
@[simp] theorem State.advance_I : s.advance.I = s.I := rfl
@[simp] theorem State.advance_v : s.advance.v = s.v := rfl
@[simp] theorem State.advance_stack : s.advance.stack = s.stack := rfl
@[simp] theorem State.advance_dt : s.advance.dt = s.dt := rfl
@[simp] theorem State.advance_st : s.advance.st = s.st := rfl
@[simp] theorem State.advance_fb : s.advance.fb = s.fb := rfl
@[simp] theorem State.advance_keypad : s.advance.keypad = s.keypad := rfl
@[simp] theorem State.advance_stepResult : s.advance.stepResult = s.stepResult := rfl
@[simp] theorem State.advance_loadResult : s.advance.loadResult = s.loadResult := rfl
@[simp] theorem State.advance_randByte : s.advance.randByte = s.randByte := rfl
@[simp] theorem State.advance_draws : s.advance.draws = s.draws := rfl
@[simp] theorem State.advance_pending : s.advance.pending = s.pending := rfl

@[simp] theorem State.setFlag_mem (c : Bool) : (s.setFlag c).mem = s.mem := rfl
@[simp] theorem State.setFlag_pc (c : Bool) : (s.setFlag c).pc = s.pc := rfl
@[simp] theorem State.setFlag_I (c : Bool) : (s.setFlag c).I = s.I := rfl
@[simp] theorem State.setFlag_stack (c : Bool) : (s.setFlag c).stack = s.stack := rfl
@[simp] theorem State.setFlag_dt (c : Bool) : (s.setFlag c).dt = s.dt := rfl
@[simp] theorem State.setFlag_st (c : Bool) : (s.setFlag c).st = s.st := rfl
@[simp] theorem State.setFlag_fb (c : Bool) : (s.setFlag c).fb = s.fb := rfl
@[simp] theorem State.setFlag_keypad (c : Bool) : (s.setFlag c).keypad = s.keypad := rfl
@[simp] theorem State.setFlag_stepResult (c : Bool) : (s.setFlag c).stepResult = s.stepResult := rfl
@[simp] theorem State.setFlag_loadResult (c : Bool) : (s.setFlag c).loadResult = s.loadResult := rfl
@[simp] theorem State.setFlag_randByte (c : Bool) : (s.setFlag c).randByte = s.randByte := rfl
@[simp] theorem State.setFlag_draws (c : Bool) : (s.setFlag c).draws = s.draws := rfl
@[simp] theorem State.setFlag_pending (c : Bool) : (s.setFlag c).pending = s.pending := rfl

@[simp] theorem State.setRegFlag_mem (x : Reg) (b : Byte) (c : Bool) : (s.setRegFlag x b c).mem = s.mem := rfl
@[simp] theorem State.setRegFlag_pc (x : Reg) (b : Byte) (c : Bool) : (s.setRegFlag x b c).pc = s.pc := rfl
@[simp] theorem State.setRegFlag_I (x : Reg) (b : Byte) (c : Bool) : (s.setRegFlag x b c).I = s.I := rfl
@[simp] theorem State.setRegFlag_stack (x : Reg) (b : Byte) (c : Bool) : (s.setRegFlag x b c).stack = s.stack := rfl
@[simp] theorem State.setRegFlag_dt (x : Reg) (b : Byte) (c : Bool) : (s.setRegFlag x b c).dt = s.dt := rfl
@[simp] theorem State.setRegFlag_st (x : Reg) (b : Byte) (c : Bool) : (s.setRegFlag x b c).st = s.st := rfl
@[simp] theorem State.setRegFlag_fb (x : Reg) (b : Byte) (c : Bool) : (s.setRegFlag x b c).fb = s.fb := rfl
@[simp] theorem State.setRegFlag_keypad (x : Reg) (b : Byte) (c : Bool) : (s.setRegFlag x b c).keypad = s.keypad := rfl
@[simp] theorem State.setRegFlag_stepResult (x : Reg) (b : Byte) (c : Bool) : (s.setRegFlag x b c).stepResult = s.stepResult := rfl
@[simp] theorem State.setRegFlag_loadResult (x : Reg) (b : Byte) (c : Bool) : (s.setRegFlag x b c).loadResult = s.loadResult := rfl
@[simp] theorem State.setRegFlag_randByte (x : Reg) (b : Byte) (c : Bool) : (s.setRegFlag x b c).randByte = s.randByte := rfl
@[simp] theorem State.setRegFlag_draws (x : Reg) (b : Byte) (c : Bool) : (s.setRegFlag x b c).draws = s.draws := rfl
@[simp] theorem State.setRegFlag_pending (x : Reg) (b : Byte) (c : Bool) : (s.setRegFlag x b c).pending = s.pending := rfl

/-! ### Registers and bytes through an update of another field -/

@[simp] theorem State.reg_setMem (m : Memory) (r : Reg) : (s.setMem m).reg r = s.reg r := rfl
@[simp] theorem State.reg_setPc (a : BitVec p.pcWidth) (r : Reg) : (s.setPc a).reg r = s.reg r := rfl
@[simp] theorem State.reg_setI (a : BitVec p.iWidth) (r : Reg) : (s.setI a).reg r = s.reg r := rfl
@[simp] theorem State.reg_setStack (l : List (BitVec p.stackEntryWidth)) (r : Reg) : (s.setStack l).reg r = s.reg r := rfl
@[simp] theorem State.reg_setDt (b : Byte) (r : Reg) : (s.setDt b).reg r = s.reg r := rfl
@[simp] theorem State.reg_setSt (b : Byte) (r : Reg) : (s.setSt b).reg r = s.reg r := rfl
@[simp] theorem State.reg_setFb (f : Framebuffer p) (r : Reg) : (s.setFb f).reg r = s.reg r := rfl
@[simp] theorem State.reg_setKeypad (k : Vector Bool p.numKeys) (r : Reg) : (s.setKeypad k).reg r = s.reg r := rfl
@[simp] theorem State.reg_setStepResult (e : StepResult p) (r : Reg) : (s.setStepResult e).reg r = s.reg r := rfl
@[simp] theorem State.reg_setLoadResult (e : LoadResult) (r : Reg) : (s.setLoadResult e).reg r = s.reg r := rfl
@[simp] theorem State.reg_setRandByte (b : Byte) (r : Reg) : (s.setRandByte b).reg r = s.reg r := rfl
@[simp] theorem State.reg_setDraws (n : Nat) (r : Reg) : (s.setDraws n).reg r = s.reg r := rfl
@[simp] theorem State.reg_setPending (l : List (Operation p)) (r : Reg) : (s.setPending l).reg r = s.reg r := rfl
@[simp] theorem State.reg_advance (r : Reg) : s.advance.reg r = s.reg r := rfl

@[simp] theorem State.byteAt_setPc (a : BitVec p.pcWidth) (i : Nat) : (s.setPc a).byteAt i = s.byteAt i := rfl
@[simp] theorem State.byteAt_setI (a : BitVec p.iWidth) (i : Nat) : (s.setI a).byteAt i = s.byteAt i := rfl
@[simp] theorem State.byteAt_setV (w : Vector Byte p.numV) (i : Nat) : (s.setV w).byteAt i = s.byteAt i := rfl
@[simp] theorem State.byteAt_setStack (l : List (BitVec p.stackEntryWidth)) (i : Nat) : (s.setStack l).byteAt i = s.byteAt i := rfl
@[simp] theorem State.byteAt_setDt (b : Byte) (i : Nat) : (s.setDt b).byteAt i = s.byteAt i := rfl
@[simp] theorem State.byteAt_setSt (b : Byte) (i : Nat) : (s.setSt b).byteAt i = s.byteAt i := rfl
@[simp] theorem State.byteAt_setFb (f : Framebuffer p) (i : Nat) : (s.setFb f).byteAt i = s.byteAt i := rfl
@[simp] theorem State.byteAt_setKeypad (k : Vector Bool p.numKeys) (i : Nat) : (s.setKeypad k).byteAt i = s.byteAt i := rfl
@[simp] theorem State.byteAt_setStepResult (r : StepResult p) (i : Nat) : (s.setStepResult r).byteAt i = s.byteAt i := rfl
@[simp] theorem State.byteAt_setLoadResult (r : LoadResult) (i : Nat) : (s.setLoadResult r).byteAt i = s.byteAt i := rfl
@[simp] theorem State.byteAt_setRandByte (b : Byte) (i : Nat) : (s.setRandByte b).byteAt i = s.byteAt i := rfl
@[simp] theorem State.byteAt_setDraws (n : Nat) (i : Nat) : (s.setDraws n).byteAt i = s.byteAt i := rfl
@[simp] theorem State.byteAt_setPending (l : List (Operation p)) (i : Nat) : (s.setPending l).byteAt i = s.byteAt i := rfl
@[simp] theorem State.byteAt_setMem (m : Memory) (i : Nat) : (s.setMem m).byteAt i = m.read i p := rfl
@[simp] theorem State.byteAt_setReg (x : Reg) (b : Byte) (i : Nat) : (s.setReg x b).byteAt i = s.byteAt i := rfl
@[simp] theorem State.byteAt_advance (i : Nat) : s.advance.byteAt i = s.byteAt i := rfl
@[simp] theorem State.byteAt_setFlag (c : Bool) (i : Nat) : (s.setFlag c).byteAt i = s.byteAt i := rfl
@[simp] theorem State.byteAt_setRegFlag (x : Reg) (b : Byte) (c : Bool) (i : Nat) :
    (s.setRegFlag x b c).byteAt i = s.byteAt i := rfl

/-! ### The register file -/

/-- Reading a register after writing one. -/
theorem State.reg_setReg (x r : Reg) (b : Byte) : (s.setReg x b).reg r = if r = x then b else s.reg r := by
  simp only [State.reg, State.setReg, State.setV, Vector.getElem_set]
  by_cases h : r = x
  · simp [h]
  · rw [if_neg h, if_neg fun e => h (Fin.ext e.symm)]

@[simp] theorem State.reg_setReg_same (x : Reg) (b : Byte) : (s.setReg x b).reg x = b := by simp [State.reg_setReg]

theorem State.reg_setReg_other {x r : Reg} (h : r ≠ x) (b : Byte) : (s.setReg x b).reg r = s.reg r := by
  simp [State.reg_setReg, h]

/-- Reading a register after writing the flag. -/
theorem State.reg_setFlag (c : Bool) (r : Reg) : (s.setFlag c).reg r = if r = VF then flagByte c else s.reg r :=
  s.reg_setReg VF r _

/-- The flag is the last write: VF holds it even where the result went to VF too (10_state.md R23). -/
theorem State.reg_setRegFlag (x r : Reg) (b : Byte) (c : Bool) :
    (s.setRegFlag x b c).reg r = if r = VF then flagByte c else if r = x then b else s.reg r := by
  rw [State.setRegFlag, State.reg_setFlag, State.reg_setReg]

/-- Equal registers are equal register files. -/
theorem State.v_ext {s t : State} (h : ∀ r, t.reg r = s.reg r) : t.v = s.v := by
  apply Vector.ext
  intro i hi
  exact h ⟨i, hi⟩

end Sys2Proof.Machine
end

