-- ==== Sys2Proof/Laws/Ops.lean ====
section
/-! SUPPORT. One lemma for each thing a shared operation can do: completing, faulting, the byte accesses, the runs of stores
and loads, the stack, the skip. -/

namespace Sys2Proof.Machine

/-! ### Completing and faulting -/

@[simp] theorem done_next {p : Config.Params} {s t : State p} : done s = .next t ↔ s.setStepResult .ok = t := by simp [done]

@[simp] theorem raise_next {p : Config.Params} {k : FaultKind} {i : Instr} {s t : State p} :
    raise k i s = .next t ↔ s.setStepResult (.fault k (s.pc - 2) (encode i)) = t := by
  simp [raise, raiseAt, State.fetchPc]

@[simp] theorem raiseAt_next {p : Config.Params} {k : FaultKind} {a : BitVec p.pcWidth} {op : Word} {s t : State p} :
    raiseAt k a op s = .next t ↔ s.setStepResult (.fault k a op) = t := by simp [raiseAt]

/-- `finish` always answers a next state: the state reached, with the result of the accesses. -/
theorem finish_next {i : Instr} {p : State × Option Nat} {t : State} :
    finish i p = .next t ↔
      (p.2 = none ∧ p.1.setStepResult .ok = t) ∨
      (∃ a, p.2 = some a ∧ p.1.setStepResult (.fault (.memoryBoundsError a) (p.1.pc - 2) (encode i)) = t) := by
  obtain ⟨s, _ | a⟩ := p <;> simp [finish]

/-! ### One byte -/

theorem State.memRead_some {s : State} {a : Nat} (h : a ≤ 0xFFF) : s.memRead a = some (s.byteAt a) := by
  rw [State.memRead, Config.hw_memSize, if_neg (by omega)]

theorem State.memRead_none {s : State} {a : Nat} (h : 0xFFF < a) : s.memRead a = none := by
  rw [State.memRead, Config.hw_memSize, if_pos (by omega)]

theorem State.memWrite_some {s : State} {a : Nat} (h : a ≤ 0xFFF) (v : Byte) :
    s.memWrite a v = some (s.setMem (s.mem.write a v)) := by
  rw [State.memWrite, Config.hw_memSize, if_neg (by omega)]

theorem State.memWrite_none {s : State} {a : Nat} (h : 0xFFF < a) (v : Byte) : s.memWrite a v = none := by
  rw [State.memWrite, Config.hw_memSize, if_pos (by omega)]

/-! ### Runs of stores -/

/-- The stores that are made: those before the first address above 0xFFF. -/
def madeStores (l : List (Nat × Byte)) : List (Nat × Byte) := l.takeWhile fun p => decide (p.1 ≤ 0xFFF)

theorem storeAll_cons_ok {a : Nat} (h : a ≤ 0xFFF) (v : Byte) (l : List (Nat × Byte)) (s : State) :
    storeAll ((a, v) :: l) s = storeAll l (s.setMem (s.mem.write a v)) := by
  simp [storeAll, State.memWrite_some h]

theorem storeAll_cons_fail {a : Nat} (h : 0xFFF < a) (v : Byte) (l : List (Nat × Byte)) (s : State) :
    storeAll ((a, v) :: l) s = (s, some a) := by
  simp [storeAll, State.memWrite_none h]

/-- A run of stores changes memory only. -/
theorem storeAll_fields (l : List (Nat × Byte)) (s : State) :
    (storeAll l s).1 = s.setMem (storeAll l s).1.mem := by
  induction l generalizing s with
  | nil => rfl
  | cons p l ih =>
    obtain ⟨a, v⟩ := p
    by_cases h : a ≤ 0xFFF
    · rw [storeAll_cons_ok h, ih]; rfl
    · rw [storeAll_cons_fail (Nat.lt_of_not_le h)]; rfl

/-- A run of stores ends at the first address above 0xFFF, if there is one. -/
theorem storeAll_end (l : List (Nat × Byte)) (s : State) :
    (storeAll l s).2 = (l.find? fun p => decide (0xFFF < p.1)).map (·.1) := by
  induction l generalizing s with
  | nil => rfl
  | cons p l ih =>
    obtain ⟨a, v⟩ := p
    by_cases h : a ≤ 0xFFF
    · simp [storeAll_cons_ok h, ih, Nat.not_lt.mpr h]
    · simp [storeAll_cons_fail (Nat.lt_of_not_le h), Nat.lt_of_not_le h]

theorem storeAll_wf {l : List (Nat × Byte)} {s : State} (h : s.mem.wf = true) : (storeAll l s).1.mem.wf = true := by
  induction l generalizing s with
  | nil => exact h
  | cons p l ih =>
    obtain ⟨a, v⟩ := p
    by_cases ha : a ≤ 0xFFF
    · rw [storeAll_cons_ok ha]; exact ih (Memory.wf_write h (Nat.lt_succ_of_le ha) v)
    · rw [storeAll_cons_fail (Nat.lt_of_not_le ha)]; exact h

/-- A run of stores leaves every byte alone that no made store names. -/
theorem storeAll_other {l : List (Nat × Byte)} {s : State} {i : Nat} (h : i ∉ (madeStores l).map (·.1)) :
    (storeAll l s).1.byteAt i = s.byteAt i := by
  induction l generalizing s with
  | nil => rfl
  | cons p l ih =>
    obtain ⟨a, v⟩ := p
    by_cases ha : a ≤ 0xFFF
    · simp only [madeStores, List.takeWhile_cons, ha, decide_true, if_true, List.map_cons, List.mem_cons, not_or] at h
      rw [storeAll_cons_ok ha, ih h.2]
      exact Memory.read_write_other h.1 _ _
    · rw [storeAll_cons_fail (Nat.lt_of_not_le ha)]

/-- Every made store leaves its byte at its address, when the addresses are distinct. -/
theorem storeAll_made {l : List (Nat × Byte)} {s : State} (hw : s.mem.wf = true) (hd : (l.map (·.1)).Nodup)
    {p : Nat × Byte} (hp : p ∈ madeStores l) : (storeAll l s).1.byteAt p.1 = p.2 := by
  induction l generalizing s with
  | nil => simp [madeStores] at hp
  | cons q l ih =>
    obtain ⟨a, v⟩ := q
    by_cases ha : a ≤ 0xFFF
    · simp only [madeStores, List.takeWhile_cons, ha, decide_true, if_true, List.mem_cons] at hp
      rw [List.map_cons, List.nodup_cons] at hd
      rw [storeAll_cons_ok ha]
      rcases hp with rfl | hp
      · rw [storeAll_other fun hm => hd.1 ?_]
        · exact Memory.read_write_same hw a v
        · exact ((List.takeWhile_sublist _).map _).subset hm
      · exact ih (Memory.wf_write hw (Nat.lt_succ_of_le ha) v) hd.2 hp
    · simp [madeStores, ha] at hp

/-! ### Runs of loads -/

/-- The loads that are made: those before the first address above 0xFFF. -/
def madeLoads (l : List (Nat × Reg)) : List (Nat × Reg) := l.takeWhile fun p => decide (p.1 ≤ 0xFFF)

theorem loadAll_cons_ok {a : Nat} (h : a ≤ 0xFFF) (k : Reg) (l : List (Nat × Reg)) (s : State) :
    loadAll ((a, k) :: l) s = loadAll l (s.setReg k (s.byteAt a)) := by
  simp [loadAll, State.memRead_some h]

theorem loadAll_cons_fail {a : Nat} (h : 0xFFF < a) (k : Reg) (l : List (Nat × Reg)) (s : State) :
    loadAll ((a, k) :: l) s = (s, some a) := by
  simp [loadAll, State.memRead_none h]

/-- A run of loads changes registers only. -/
theorem loadAll_fields (l : List (Nat × Reg)) (s : State) : (loadAll l s).1 = s.setV (loadAll l s).1.v := by
  induction l generalizing s with
  | nil => rfl
  | cons p l ih =>
    obtain ⟨a, k⟩ := p
    by_cases h : a ≤ 0xFFF
    · rw [loadAll_cons_ok h, ih]; rfl
    · rw [loadAll_cons_fail (Nat.lt_of_not_le h)]; rfl

theorem loadAll_end (l : List (Nat × Reg)) (s : State) :
    (loadAll l s).2 = (l.find? fun p => decide (0xFFF < p.1)).map (·.1) := by
  induction l generalizing s with
  | nil => rfl
  | cons p l ih =>
    obtain ⟨a, k⟩ := p
    by_cases h : a ≤ 0xFFF
    · simp [loadAll_cons_ok h, ih, Nat.not_lt.mpr h]
    · simp [loadAll_cons_fail (Nat.lt_of_not_le h), Nat.lt_of_not_le h]

/-- A run of loads leaves every register alone that no made load names. -/
theorem loadAll_other {l : List (Nat × Reg)} {s : State} {r : Reg} (h : r ∉ (madeLoads l).map (·.2)) :
    (loadAll l s).1.reg r = s.reg r := by
  induction l generalizing s with
  | nil => rfl
  | cons p l ih =>
    obtain ⟨a, k⟩ := p
    by_cases ha : a ≤ 0xFFF
    · simp only [madeLoads, List.takeWhile_cons, ha, decide_true, if_true, List.map_cons, List.mem_cons, not_or] at h
      rw [loadAll_cons_ok ha, ih h.2, State.reg_setReg_other _ h.1]
    · rw [loadAll_cons_fail (Nat.lt_of_not_le ha)]

/-- Every made load leaves the byte at its address in its register, when the registers are distinct. -/
theorem loadAll_made {l : List (Nat × Reg)} {s : State} (hd : (l.map (·.2)).Nodup) {p : Nat × Reg}
    (hp : p ∈ madeLoads l) : (loadAll l s).1.reg p.2 = s.byteAt p.1 := by
  induction l generalizing s with
  | nil => simp [madeLoads] at hp
  | cons q l ih =>
    obtain ⟨a, k⟩ := q
    by_cases ha : a ≤ 0xFFF
    · simp only [madeLoads, List.takeWhile_cons, ha, decide_true, if_true, List.mem_cons] at hp
      rw [List.map_cons, List.nodup_cons] at hd
      rw [loadAll_cons_ok ha]
      rcases hp with rfl | hp
      · rw [loadAll_other fun hm => hd.1 ?_, State.reg_setReg_same]
        exact ((List.takeWhile_sublist _).map _).subset hm
      · rw [ih hd.2 hp, State.byteAt_setReg]
    · simp [madeLoads, ha] at hp

/-! ### The register block V0..Vx -/

theorem mem_regsUpTo {x r : Reg} : r ∈ regsUpTo x ↔ r ≤ x := by
  revert x r; decide

theorem regsUpTo_nodup (x : Reg) : (regsUpTo x).Nodup := by
  revert x; decide

theorem regsUpTo_val (x : Reg) : (regsUpTo x).map Fin.val = List.range (x.val + 1) := by
  revert x; decide

/-! ### Program counter and stack -/

theorem State.skipIf_eq {p : Config.Params} (s : State p) (c : Bool) : s.skipIf c = s.setPc (if c then s.pc + 2 else s.pc) := by
  cases c <;> rfl

theorem State.push_some {p : Config.Params} {s : State p} (h : s.stack.length < p.stackDepth)
    (a : BitVec p.stackEntryWidth) : s.push a = some (s.setStack (s.stack ++ [a])) := by
  rw [State.push, if_neg (Nat.not_le.mpr h)]

theorem State.push_none {p : Config.Params} {s : State p} (h : p.stackDepth ≤ s.stack.length)
    (a : BitVec p.stackEntryWidth) : s.push a = none := by
  rw [State.push, if_pos h]

theorem State.pop_concat {p : Config.Params} {s : State p} {l : List (BitVec p.stackEntryWidth)}
    {a : BitVec p.stackEntryWidth} (h : s.stack = l ++ [a]) : s.pop = some (a, s.setStack l) := by
  simp [State.pop, h]

theorem State.pop_nil {p : Config.Params} {s : State p} (h : s.stack = []) : s.pop = none := by
  simp [State.pop, h]

/-! ### Fetch -/

theorem State.fetch_some {s : State} (h : s.pc.toNat ≤ 0xFFE) :
    s.fetch = some (wordOfBytes (s.byteAt s.pc.toNat) (s.byteAt (s.pc.toNat + 1))) := by
  rw [State.fetch, Config.hw_memSize, if_neg (by omega)]

theorem State.fetch_none {s : State} (h : 0xFFE < s.pc.toNat) : s.fetch = none := by
  rw [State.fetch, Config.hw_memSize, if_pos (by omega)]

end Sys2Proof.Machine
end

