-- ==== Sys2Proof/Laws/Blind.lean ====
section
/-! SUPPORT. An update of a part of the state that instructions neither read nor (but for `step_result`) write passes through
every instruction. `Blind g g'` collects what such an update `g` must meet; `g'` is what is left of it after `step_result` is
written: `g` itself, or nothing where `g` only wrote `step_result`. -/

namespace Sys2Proof.Machine

structure Blind (g g' : State → State) : Prop where
  mem : ∀ s, (g s).mem = s.mem
  pc : ∀ s, (g s).pc = s.pc
  I : ∀ s, (g s).I = s.I
  v : ∀ s, (g s).v = s.v
  stack : ∀ s, (g s).stack = s.stack
  dt : ∀ s, (g s).dt = s.dt
  fb : ∀ s, (g s).fb = s.fb
  keypad : ∀ s, (g s).keypad = s.keypad
  setMem : ∀ s m, g (s.setMem m) = (g s).setMem m
  setPc : ∀ s a, g (s.setPc a) = (g s).setPc a
  setI : ∀ s a, g (s.setI a) = (g s).setI a
  setV : ∀ s w, g (s.setV w) = (g s).setV w
  setStack : ∀ s l, g (s.setStack l) = (g s).setStack l
  setDt : ∀ s b, g (s.setDt b) = (g s).setDt b
  setFb : ∀ s f, g (s.setFb f) = (g s).setFb f
  setStepResult : ∀ s r, (g s).setStepResult r = g' (s.setStepResult r)

theorem blind_setSt (b : Byte) : Blind (·.setSt b) (·.setSt b) := by constructor <;> intros <;> rfl
theorem blind_setPending (l : List Operation) : Blind (·.setPending l) (·.setPending l) := by
  constructor <;> intros <;> rfl
theorem blind_setLoadResult (r : LoadResult) : Blind (·.setLoadResult r) (·.setLoadResult r) := by
  constructor <;> intros <;> rfl
theorem blind_setRandByte (b : Byte) : Blind (·.setRandByte b) (·.setRandByte b) := by constructor <;> intros <;> rfl
theorem blind_setStepResult (r : StepResult) : Blind (·.setStepResult r) id := by constructor <;> intros <;> rfl

theorem storeAll_blind {g g' : State → State} (hg : Blind g g') (l : List (Nat × Byte)) (s : State) :
    storeAll l (g s) = (g (storeAll l s).1, (storeAll l s).2) := by
  induction l generalizing s with
  | nil => rfl
  | cons p l ih =>
    obtain ⟨a, v⟩ := p
    by_cases h : a ≤ 0xFFF
    · rw [storeAll_cons_ok h, storeAll_cons_ok h, hg.mem, ← hg.setMem, ih]
    · rw [storeAll_cons_fail (Nat.lt_of_not_le h), storeAll_cons_fail (Nat.lt_of_not_le h)]

theorem loadAll_blind {g g' : State → State} (hg : Blind g g') (l : List (Nat × Reg)) (s : State) :
    loadAll l (g s) = (g (loadAll l s).1, (loadAll l s).2) := by
  induction l generalizing s with
  | nil => rfl
  | cons p l ih =>
    obtain ⟨a, k⟩ := p
    by_cases h : a ≤ 0xFFF
    · rw [loadAll_cons_ok h, loadAll_cons_ok h]
      simp only [State.setReg, State.byteAt]
      rw [hg.v, hg.mem, ← hg.setV, ih]
    · rw [loadAll_cons_fail (Nat.lt_of_not_le h), loadAll_cons_fail (Nat.lt_of_not_le h)]

/-- Drawing reads the state's memory only. -/
theorem drawRows_congr {s s' : State} (h : s'.mem = s.mem) (base cx cy : Nat) (rs : List Nat) (d : Framebuffer × Bool) :
    drawRows s' base cx cy rs d = drawRows s base cx cy rs d := by
  induction rs generalizing d with
  | nil => rfl
  | cons r rs ih => simp only [drawRows, State.memRead, State.byteAt, h, ih]

/-- Fetching reads memory and pc only. -/
theorem State.fetch_congr {s s' : State} (h : s'.mem = s.mem) (hp : s'.pc = s.pc) : s'.fetch = s.fetch := by
  simp only [State.fetch, State.byteAt, h, hp]

/-- A blind update passes through every instruction; FX18 needs it to commute with writing ST, CXNN to leave the random byte. -/
theorem exec_blind {g g' : State → State} (hg : Blind g g') (i : Instr) {s t : State}
    (hst : ∀ x, i = .ldStVx x → ∀ s b, g (s.setSt b) = (g s).setSt b)
    (hrnd : ∀ x nn, i = .rnd x nn → (g s).randByte = s.randByte) (he : exec i s = .next t) :
    exec i (g s) = .next (g' t) := by
  have hreg : ∀ x, (g s).reg x = s.reg x := fun x => by simp only [State.reg, hg.v]
  have hsreg : ∀ s x b, g (s.setReg x b) = (g s).setReg x b := fun s x b => by simp only [State.setReg, hg.setV, hg.v]
  have hsf : ∀ s b, g (s.setFlag b) = (g s).setFlag b := fun s b => by simp only [State.setFlag, hsreg]
  have hsrf : ∀ s x r b, g (s.setRegFlag x r b) = (g s).setRegFlag x r b :=
    fun s x r b => by simp only [State.setRegFlag, hsreg, hsf]
  have hskip : ∀ c, g (s.skipIf c) = (g s).skipIf c := fun c => by cases c <;> simp [State.skipIf, hg.setPc, hg.pc]
  have heff : ∀ k, (g s).effAddr k = s.effAddr k := fun k => by simp only [State.effAddr, hg.I]
  have hdone : ∀ u, done u = .next t → done (g u) = .next (g' t) := fun u h => by
    rw [done_next] at h ⊢; rw [hg.setStepResult, h]
  have hraise : ∀ k i u, raise k i u = .next t → raise k i (g u) = .next (g' t) := fun k i u h => by
    rw [raise_next] at h ⊢; rw [hg.pc, hg.setStepResult, h]
  have hfin : ∀ i p, finish i p = .next t → finish i (g p.1, p.2) = .next (g' t) := by
    rintro i ⟨u, _ | a⟩ h
    · exact hdone u h
    · exact hraise _ _ u h
  cases i
  case ret =>
    simp only [exec, execRet, State.pop, hg.stack] at he ⊢
    cases h : s.stack.getLast? <;> simp only [h] at he ⊢
    · exact hraise _ _ _ he
    · rw [← hg.setStack, ← hg.setPc]; exact hdone _ he
  case call nnn =>
    simp only [exec, execCall, State.push, hg.stack, hg.pc] at he ⊢
    by_cases h : Config.hw.stackDepth ≤ s.stack.length
    · simp only [h, if_true] at he ⊢; exact hraise _ _ _ he
    · simp only [h, if_false] at he ⊢; rw [← hg.setStack, ← hg.setPc]; exact hdone _ he
  case ldVxK x =>
    simp only [exec, execLdVxK, hg.keypad] at he ⊢
    cases h : lowestPressed s.keypad <;> simp only [h] at he ⊢
    · rw [hg.pc, ← hg.setPc]; exact hdone _ he
    · rw [← hsreg]; exact hdone _ he
  case drw x y n =>
    have hd : drawSprite x y n (g s) = drawSprite x y n s := by
      simp only [drawSprite, heff, hreg, hg.fb]; exact drawRows_congr (hg.mem s) ..
    simp only [exec, execDrw, hd] at he ⊢
    generalize drawSprite x y n s = r at he ⊢
    rcases r with ⟨d, _ | a⟩ <;> simp only at he ⊢
    · rw [← hsf, ← hg.setFb, ← hsf]; exact hdone _ he
    · rw [← hsf, ← hg.setFb]; exact hraise _ _ _ he
  case ldB x =>
    simp only [exec, execLdB, bcdStores, heff, hreg] at he ⊢
    rw [storeAll_blind hg]; exact hfin _ _ he
  case stRegs x =>
    simp only [exec, execStRegs, regStores, heff, hreg] at he ⊢
    rw [storeAll_blind hg]; exact hfin _ _ he
  case ldRegs x =>
    simp only [exec, execLdRegs, regLoads, heff] at he ⊢
    rw [loadAll_blind hg]; exact hfin _ _ he
  case rnd x nn =>
    simp only [exec, execRnd, hrnd x nn rfl, ← hsreg] at he ⊢; exact hdone _ he
  case ldStVx x =>
    simp only [exec, execLdStVx, hreg, ← hst x rfl] at he ⊢; exact hdone _ he
  all_goals
    simp only [exec, execCls, execJp, execSeByte, execSneByte, execSeReg, execLdByte, execAddByte, execLdReg, execOrReg,
      execAndReg, execXorReg, execAddReg, execSubReg, execShrReg, execSubnReg, execShlReg, execSneReg, execLdI, execJpV0,
      execSkp, execSknp, execLdVxDt, execLdDtVx, execAddI, execLdF, shiftRight, shiftLeft, shiftOperand] at he ⊢
    simp only [hreg, hg.I, hg.dt, hg.keypad, ← hsreg, ← hsf, ← hsrf, ← hskip, ← hg.setPc, ← hg.setI, ← hg.setDt,
      ← hg.setFb] at he ⊢
    exact hdone _ he

end Sys2Proof.Machine
end

