-- ==== Sys2Proof/Laws/Operations.lean ====
section
/-! SUPPORT. The host's operations at this hardware's parameters: when LOAD fits, where a placed word lies, which state RESET
leaves; and runs of instructions put one after the other. -/

namespace Sys2Proof.Machine

/-! ### This hardware's configuration (00_scope.md R7) -/

/-- `exec` is the execution of an instruction at this hardware's configuration. -/
@[simp] theorem execUnder_eq_exec (i : Instr) (s : State) : execUnder i s = exec i s := by
  cases i <;> rfl

/-! ### LOAD (70_reset_and_hazards.md R265) -/

theorem opLoad_fits {rom : List Byte} (h : rom.length ≤ 3584) (s : State) :
    opLoad rom s = (s.setMem (Memory.writeBytes rom 0x200 s.mem)).setLoadResult .ok := by
  rw [opLoad, if_neg (show ¬ rom.length > Config.hw.memSize - Config.hw.programBase from Nat.not_lt.mpr h)]

theorem opLoad_tooLong {rom : List Byte} (h : 3584 < rom.length) (s : State) :
    opLoad rom s = s.setLoadResult .loadTooLong := by
  rw [opLoad, if_pos (show rom.length > Config.hw.memSize - Config.hw.programBase from h)]

/-! ### RESET (R260) -/

/-- RESET leaves the state after reset, but for the model's own three fields. -/
theorem opReset_eq (s : State) :
    opReset s = ((State.reset.setRandByte s.randByte).setDraws s.draws).setPending s.pending := rfl

/-! ### Where the next STEP fetches -/

theorem State.fetchAddr_of_fetchable {s : State} (h : s.pc.toNat ≤ 0xFFE) : s.fetchAddr = s.pc.toNat := by
  rw [State.fetchAddr, Config.hw_memSize, if_neg (by omega)]

theorem State.fetchAddr_le (s : State) : s.fetchAddr ≤ 0xFFE := by
  rw [State.fetchAddr, Config.hw_memSize, Config.hw_programBase]; split <;> omega

/-! ### Calls and returns (40_control.md R101, R103) -/

theorem execCall_fits {s : State} (h : s.stack.length < 16) (nnn : Addr) :
    execCall nnn s = .next (((s.setStack (s.stack ++ [s.pc])).setPc (zextAddr nnn)).setStepResult .ok) := by
  rw [execCall, State.push_some h, BitVec.setWidth_eq]
  rfl

theorem execCall_full {s : State} (h : 16 ≤ s.stack.length) (nnn : Addr) :
    execCall nnn s = .next (s.setStepResult (.fault .stackOverflow (s.pc - 2) (encode (.call nnn)))) := by
  rw [execCall, State.push_none h]
  rfl

theorem execRet_concat {s : State} {l : List Word} {a : Word} (h : s.stack = l ++ [a]) :
    execRet s = .next (((s.setStack l).setPc a).setStepResult .ok) := by
  rw [execRet, State.pop_concat h]
  simp only [done, BitVec.setWidth_eq]

theorem execRet_nil {s : State} (h : s.stack = []) :
    execRet s = .next (s.setStepResult (.fault .stackUnderflow (s.pc - 2) (encode .ret))) := by
  rw [execRet, State.pop_nil h]
  rfl

/-! ### The key test (44_timer_key.md R211) -/

theorem keyPressed_index {p : Config.Params} (policy : Config.KeyIndexPolicy) (keypad : Vector Bool p.numKeys) {v : Byte}
    (h : v.toNat < p.numKeys) : keyPressed policy keypad v = keypad[v.toNat] := by
  unfold keyPressed
  rw [dif_pos h]

theorem keyPressed_above {p : Config.Params} (policy : Config.KeyIndexPolicy) (keypad : Vector Bool p.numKeys) {v : Byte}
    (h : p.numKeys ≤ v.toNat) :
    keyPressed policy keypad v = (policy == .maskLowNibble && keypad[lowNibbleKey v p]) := by
  unfold keyPressed
  rw [dif_neg (Nat.not_lt.mpr h)]
  cases policy <;> rfl

/-! ### Runs of instructions -/

theorem execAll_cons {i : Instr} {s t : State} (h : exec i s.advance = .next t) (l : List Instr) :
    execAll (i :: l) s = execAll l t := by
  rw [execAll, h]

/-- A run of two lists is the second from where the first ends. -/
theorem execAll_append {l : List Instr} {s t : State} (h : execAll l s = .next t) (l' : List Instr) :
    execAll (l ++ l') s = execAll l' t := by
  induction l generalizing s with
  | nil =>
    cases h
    rfl
  | cons i l ih =>
    rw [List.cons_append]
    rw [execAll] at h ⊢
    split at h
    · exact ih h
    · cases h
    · cases h

end Sys2Proof.Machine
end

