-- ==== Sys2Proof/Laws/Display.lean ====
section
/-! SUPPORT. What drawing does to a pixel and to the collision detector: bit by bit, then row by row. -/

namespace Sys2Proof.Machine

theorem pixel_setPixel (f : Framebuffer) (row r : Fin 32) (col c : Fin 64) (b : Bool) :
    pixel (setPixel f row col b) r c = if r = row ∧ c = col then b else pixel f r c := by
  have hrow : (setPixel f row col b)[r] = if r = row then f[row].set col.val b else f[r] := by
    by_cases hr : r = row
    · subst hr; simp [setPixel]
    · have hne : ¬ row.val = r.val := fun e => hr (Fin.ext e.symm)
      simp [setPixel, hr, hne]
  unfold pixel
  rw [hrow]
  by_cases hr : r = row
  · subst hr
    by_cases hc : c = col
    · subst hc; simp
    · have hne : ¬ col.val = c.val := fun e => hc (Fin.ext e.symm)
      simp [hc, hne]
  · simp [hr]

/-- Equal pixels are equal framebuffers. -/
theorem framebuffer_ext {f g : Framebuffer} (h : ∀ r c, pixel f r c = pixel g r c) : f = g := by
  apply Vector.ext
  intro i hi
  apply Vector.ext
  intro j hj
  exact h ⟨i, hi⟩ ⟨j, hj⟩

theorem pixel_blankFb (r : Fin 32) (c : Fin 64) : pixel blankFb r c = false := by
  simp [pixel, blankFb]

@[simp] theorem val_spriteCol (cx b : Nat) : (spriteCol cx b).val = (cx + b) % 64 := rfl

@[simp] theorem val_spriteRow (cy r : Nat) : (spriteRow cy r).val = (cy + r) % 32 := rfl

/-- Distinct bits of a row byte fall on distinct columns. -/
theorem spriteCol_inj {cx b b' : Nat} (hb : b < 8) (hb' : b' < 8) (h : spriteCol cx b = spriteCol cx b') : b = b' := by
  have h := congrArg Fin.val h
  simp only [val_spriteCol] at h
  omega

/-- Distinct rows of a sprite fall on distinct rows. -/
theorem spriteRow_inj {cy r r' : Nat} (hr : r < 16) (hr' : r' < 16) (h : spriteRow cy r = spriteRow cy r') : r = r' := by
  have h := congrArg Fin.val h
  simp only [val_spriteRow] at h
  omega

/-- A 1 bit of the row byte among the bits `bs` falls on column `c`. -/
def rowBit (byte : Byte) (cx : Nat) (bs : List Nat) (c : Fin 64) : Prop :=
  ∃ b ∈ bs, byte.getLsbD (7 - b) = true ∧ c = spriteCol cx b

/-- Drawing the bits of a row byte flips the pixels its 1 bits fall on, and no other. -/
theorem drawBits_pixel {byte : Byte} {cx : Nat} {row : Fin 32} {bs : List Nat} (h8 : ∀ b ∈ bs, b < 8) (hd : bs.Nodup)
    (d : Framebuffer × Bool) (r : Fin 32) (c : Fin 64) :
    (r = row ∧ rowBit byte cx bs c → pixel (drawBits byte cx row bs d).1 r c = !pixel d.1 r c) ∧
    (¬ (r = row ∧ rowBit byte cx bs c) → pixel (drawBits byte cx row bs d).1 r c = pixel d.1 r c) := by
  induction bs generalizing d with
  | nil => exact ⟨fun h => by simp [rowBit] at h, fun _ => rfl⟩
  | cons b bs ih =>
    rw [List.nodup_cons] at hd
    have ih := fun d => ih (fun b hb => h8 b (List.mem_cons_of_mem _ hb)) hd.2 d
    have hfresh : ∀ c, c = spriteCol cx b → ¬ rowBit byte cx bs c := by
      rintro c rfl ⟨b', hb', -, e⟩
      have := spriteCol_inj (h8 b (by simp)) (h8 b' (List.mem_cons_of_mem _ hb')) e
      exact hd.1 (this ▸ hb')
    rw [drawBits]
    by_cases hbit : byte.getLsbD (7 - b) = true
    · rw [if_pos hbit]
      have hp : pixel (plot row (spriteCol cx b) d).1 r c =
          if r = row ∧ c = spriteCol cx b then !pixel d.1 row (spriteCol cx b) else pixel d.1 r c := pixel_setPixel ..
      obtain ⟨ih1, ih2⟩ := ih (plot row (spriteCol cx b) d)
      constructor
      · rintro ⟨rfl, b', hb', hbit', e⟩
        rcases List.mem_cons.mp hb' with rfl | hb'
        · subst e
          rw [ih2 (fun h => hfresh _ rfl h.2), hp, if_pos ⟨rfl, rfl⟩]
        · have hrb : rowBit byte cx bs c := ⟨b', hb', hbit', e⟩
          rw [ih1 ⟨rfl, hrb⟩, hp, if_neg fun h => hfresh _ h.2 hrb]
      · intro h
        rw [ih2 (fun h' => h ⟨h'.1, let ⟨b', hb', e⟩ := h'.2; ⟨b', List.mem_cons_of_mem _ hb', e⟩⟩), hp,
          if_neg fun h' => h ⟨h'.1, b, by simp, hbit, h'.2⟩]
    · rw [if_neg hbit]
      obtain ⟨ih1, ih2⟩ := ih d
      have hiff : rowBit byte cx (b :: bs) c ↔ rowBit byte cx bs c := by
        constructor
        · rintro ⟨b', hb', hbit', e⟩
          rcases List.mem_cons.mp hb' with rfl | hb'
          · exact absurd hbit' hbit
          · exact ⟨b', hb', hbit', e⟩
        · rintro ⟨b', hb', e⟩
          exact ⟨b', List.mem_cons_of_mem _ hb', e⟩
      rw [hiff]
      exact ⟨ih1, ih2⟩

/-- The collision detector after the bits of a row byte: it was set, or a 1 bit fell on a pixel that was 1. -/
theorem drawBits_collided {byte : Byte} {cx : Nat} {row : Fin 32} {bs : List Nat} (h8 : ∀ b ∈ bs, b < 8) (hd : bs.Nodup)
    (d : Framebuffer × Bool) :
    (drawBits byte cx row bs d).2 = true ↔ d.2 = true ∨ ∃ c, rowBit byte cx bs c ∧ pixel d.1 row c = true := by
  induction bs generalizing d with
  | nil => simp [drawBits, rowBit]
  | cons b bs ih =>
    rw [List.nodup_cons] at hd
    have ih := fun d => ih (fun b hb => h8 b (List.mem_cons_of_mem _ hb)) hd.2 d
    have hfresh : ¬ rowBit byte cx bs (spriteCol cx b) := by
      rintro ⟨b', hb', -, e⟩
      have := spriteCol_inj (h8 b (by simp)) (h8 b' (List.mem_cons_of_mem _ hb')) e
      exact hd.1 (this ▸ hb')
    have hmono : ∀ c, rowBit byte cx bs c → rowBit byte cx (b :: bs) c :=
      fun c ⟨b', hb', e⟩ => ⟨b', List.mem_cons_of_mem _ hb', e⟩
    rw [drawBits, ih]
    by_cases hbit : byte.getLsbD (7 - b) = true
    · rw [if_pos hbit]
      have hp : ∀ c, pixel (plot row (spriteCol cx b) d).1 row c =
          if row = row ∧ c = spriteCol cx b then !pixel d.1 row (spriteCol cx b) else pixel d.1 row c :=
        fun c => pixel_setPixel ..
      have h2 : (plot row (spriteCol cx b) d).2 = true ↔ d.2 = true ∨ pixel d.1 row (spriteCol cx b) = true := by
        simp [plot]
      rw [h2]
      constructor
      · rintro ((h | h) | ⟨c, hc, h⟩)
        · exact .inl h
        · exact .inr ⟨_, ⟨b, by simp, hbit, rfl⟩, h⟩
        · refine .inr ⟨c, hmono c hc, ?_⟩
          have hne : ¬ (row = row ∧ c = spriteCol cx b) := by rintro ⟨-, rfl⟩; exact hfresh hc
          rwa [hp, if_neg hne] at h
      · rintro (h | ⟨c, ⟨b', hb', hbit', rfl⟩, h⟩)
        · exact .inl (.inl h)
        · rcases List.mem_cons.mp hb' with rfl | hb'
          · exact .inl (.inr h)
          · have hc : rowBit byte cx bs (spriteCol cx b') := ⟨b', hb', hbit', rfl⟩
            refine .inr ⟨_, hc, ?_⟩
            have hne : ¬ (row = row ∧ spriteCol cx b' = spriteCol cx b) := by rintro ⟨-, e⟩; exact hfresh (e ▸ hc)
            rwa [hp, if_neg hne]
    · rw [if_neg hbit]
      constructor
      · rintro (h | ⟨c, hc, h⟩)
        · exact .inl h
        · exact .inr ⟨c, hmono c hc, h⟩
      · rintro (h | ⟨c, ⟨b', hb', hbit', e⟩, h⟩)
        · exact .inl h
        · rcases List.mem_cons.mp hb' with rfl | hb'
          · exact absurd hbit' hbit
          · exact .inr ⟨c, ⟨b', hb', hbit', e⟩, h⟩

/-- A 1 bit of the sprite rows `rs` at `base`, placed at (cx, cy), falls on pixel (r, c). -/
def rowsBit (s : State) (base cx cy : Nat) (rs : List Nat) (r : Fin 32) (c : Fin 64) : Prop :=
  ∃ k ∈ rs, r = spriteRow cy k ∧ rowBit (s.byteAt (base + k)) cx (List.range 8) c

/-- The rows that are drawn: those before the first row address above 0xFFF. -/
def drawnRows (base : Nat) (rs : List Nat) : List Nat := rs.takeWhile fun k => decide (base + k ≤ 0xFFF)

theorem drawRows_end (s : State) (base cx cy : Nat) (rs : List Nat) (d : Framebuffer × Bool) :
    (drawRows s base cx cy rs d).2 = (rs.find? fun k => decide (0xFFF < base + k)).map (base + ·) := by
  induction rs generalizing d with
  | nil => rfl
  | cons k rs ih =>
    by_cases h : base + k ≤ 0xFFF
    · simp [drawRows, State.memRead_some h, ih, Nat.not_lt.mpr h]
    · simp [drawRows, State.memRead_none (Nat.lt_of_not_le h), Nat.lt_of_not_le h]

theorem range8_lt : ∀ b ∈ List.range 8, b < 8 := fun _ h => List.mem_range.mp h

/-- Drawing rows flips the pixels the 1 bits of the drawn rows fall on, and no other. -/
theorem drawRows_pixel {s : State} {base cx cy : Nat} {rs : List Nat} (h16 : ∀ k ∈ rs, k < 16) (hd : rs.Nodup)
    (d : Framebuffer × Bool) (r : Fin 32) (c : Fin 64) :
    (rowsBit s base cx cy (drawnRows base rs) r c →
      pixel (drawRows s base cx cy rs d).1.1 r c = !pixel d.1 r c) ∧
    (¬ rowsBit s base cx cy (drawnRows base rs) r c → pixel (drawRows s base cx cy rs d).1.1 r c = pixel d.1 r c) := by
  induction rs generalizing d with
  | nil => exact ⟨fun h => by simp [rowsBit, drawnRows] at h, fun _ => rfl⟩
  | cons k rs ih =>
    by_cases hk : base + k ≤ 0xFFF
    · rw [List.nodup_cons] at hd
      have ih := fun d => ih (fun b hb => h16 b (List.mem_cons_of_mem _ hb)) hd.2 d
      have hsub : ∀ j ∈ drawnRows base rs, j ∈ rs := fun j hj => (List.takeWhile_sublist _).subset hj
      have hdr : drawnRows base (k :: rs) = k :: drawnRows base rs := by simp [drawnRows, hk]
      have hfresh : r = spriteRow cy k → ¬ rowsBit s base cx cy (drawnRows base rs) r c := by
        rintro rfl ⟨j, hj, e, -⟩
        have := spriteRow_inj (h16 k (by simp)) (h16 j (List.mem_cons_of_mem _ (hsub j hj))) e
        exact hd.1 (this ▸ hsub j hj)
      simp only [drawRows, State.memRead_some hk]
      obtain ⟨ih1, ih2⟩ := ih (drawBits (s.byteAt (base + k)) cx (spriteRow cy k) (List.range 8) d)
      obtain ⟨db1, db2⟩ := drawBits_pixel (byte := s.byteAt (base + k)) (cx := cx) (row := spriteRow cy k) range8_lt
        List.nodup_range d r c
      rw [hdr]
      constructor
      · rintro ⟨j, hj, e, hb⟩
        rcases List.mem_cons.mp hj with rfl | hj
        · rw [ih2 (hfresh e), db1 ⟨e, hb⟩]
        · have hrest : rowsBit s base cx cy (drawnRows base rs) r c := ⟨j, hj, e, hb⟩
          rw [ih1 hrest, db2 fun h => hfresh h.1 hrest]
      · intro h
        rw [ih2 (fun ⟨j, hj, e⟩ => h ⟨j, List.mem_cons_of_mem _ hj, e⟩), db2 fun h' => h ⟨k, by simp, h'⟩]
    · have hdr : drawnRows base (k :: rs) = [] := by simp [drawnRows, hk]
      simp [drawRows, State.memRead_none (Nat.lt_of_not_le hk), hdr, rowsBit]

/-- The collision detector after rows: it was set, or a 1 bit of a drawn row fell on a pixel that was 1. -/
theorem drawRows_collided {s : State} {base cx cy : Nat} {rs : List Nat} (h16 : ∀ k ∈ rs, k < 16) (hd : rs.Nodup)
    (d : Framebuffer × Bool) :
    (drawRows s base cx cy rs d).1.2 = true ↔
      d.2 = true ∨ ∃ r c, rowsBit s base cx cy (drawnRows base rs) r c ∧ pixel d.1 r c = true := by
  induction rs generalizing d with
  | nil => simp [drawRows, rowsBit, drawnRows]
  | cons k rs ih =>
    by_cases hk : base + k ≤ 0xFFF
    · rw [List.nodup_cons] at hd
      have ih := fun d => ih (fun b hb => h16 b (List.mem_cons_of_mem _ hb)) hd.2 d
      have hsub : ∀ j ∈ drawnRows base rs, j ∈ rs := fun j hj => (List.takeWhile_sublist _).subset hj
      have hdr : drawnRows base (k :: rs) = k :: drawnRows base rs := by simp [drawnRows, hk]
      have hother : ∀ r c, rowsBit s base cx cy (drawnRows base rs) r c →
          pixel (drawBits (s.byteAt (base + k)) cx (spriteRow cy k) (List.range 8) d).1 r c = pixel d.1 r c := by
        rintro r c ⟨j, hj, rfl, -⟩
        refine (drawBits_pixel range8_lt List.nodup_range d _ c).2 fun h => ?_
        have := spriteRow_inj (h16 j (List.mem_cons_of_mem _ (hsub j hj))) (h16 k (by simp)) h.1
        exact hd.1 (this ▸ hsub j hj)
      simp only [drawRows, State.memRead_some hk]
      rw [ih, drawBits_collided range8_lt List.nodup_range, hdr]
      constructor
      · rintro ((h | ⟨c, hc, h⟩) | ⟨r, c, hrc, h⟩)
        · exact .inl h
        · exact .inr ⟨_, c, ⟨k, by simp, rfl, hc⟩, h⟩
        · rw [hother r c hrc] at h
          obtain ⟨j, hj, e⟩ := hrc
          exact .inr ⟨r, c, ⟨j, List.mem_cons_of_mem _ hj, e⟩, h⟩
      · rintro (h | ⟨r, c, ⟨j, hj, e, hc⟩, h⟩)
        · exact .inl (.inl h)
        · rcases List.mem_cons.mp hj with rfl | hj
          · exact .inl (.inr ⟨c, hc, e ▸ h⟩)
          · have hrc : rowsBit s base cx cy (drawnRows base rs) r c := ⟨j, hj, e, hc⟩
            exact .inr ⟨r, c, hrc, by rw [hother r c hrc]; exact h⟩
    · have hdr : drawnRows base (k :: rs) = [] := by simp [drawnRows, hk]
      simp only [drawRows, State.memRead_none (Nat.lt_of_not_le hk), hdr]
      simp [rowsBit]

end Sys2Proof.Machine
end

