-- ==== Sys2Proof/Laws/Transfers.lean ====
section
/-! SUPPORT. The runs of accesses that FX33, FX55, FX65 and DXYN make are at consecutive addresses from `I`: where such a run
ends, which of its accesses are made, and what the operand operations give as numbers. -/

namespace Sys2Proof.Machine

/-! ### Runs at consecutive addresses -/

/-- A run at consecutive addresses from `a` ends at `a` or at `bound`, whichever is higher, when it reaches `bound`. -/
theorem find_from {α : Type} (bound : Nat) (f : α → Nat) (l : List α) (a : Nat)
    (h : l.map f = List.range' a l.length) :
    (l.find? fun q => decide (bound ≤ f q)).map f =
      if l = [] ∨ a + l.length ≤ bound then none else some (max a bound) := by
  induction l generalizing a with
  | nil => simp
  | cons q l ih =>
    simp only [List.map_cons, List.length_cons, List.range'_succ, List.cons.injEq] at h
    by_cases hq : bound ≤ f q
    · rw [List.find?_cons_of_pos (by simpa using hq), if_neg (by simp; omega)]
      simp; omega
    · rw [List.find?_cons_of_neg (by simpa using hq), ih (a + 1) h.2]
      rcases l with _ | ⟨q', l⟩
      · simp; omega
      · have hl : a + 1 + (l.length + 1) = a + (l.length + 1 + 1) := by omega
        simp only [List.length_cons, hl, reduceCtorEq, false_or]
        split
        · rfl
        · congr 1; omega

/-- Such a run ends at `a` or at 0x1000, whichever is higher, when it passes 0xFFF. -/
theorem find_above {α : Type} (f : α → Nat) (l : List α) (a : Nat) (h : l.map f = List.range' a l.length) :
    (l.find? fun p => decide (0xFFF < f p)).map f =
      if l = [] ∨ a + l.length ≤ 0x1000 then none else some (max a 0x1000) :=
  find_from 0x1000 f l a h

/-- The accesses of such a run that are made are those at addresses up to 0xFFF. -/
theorem mem_takeWhile_below {α : Type} (f : α → Nat) (l : List α) (a : Nat) (h : l.map f = List.range' a l.length) (p : α) :
    p ∈ l.takeWhile (fun p => decide (f p ≤ 0xFFF)) ↔ p ∈ l ∧ f p ≤ 0xFFF := by
  induction l generalizing a with
  | nil => simp
  | cons q l ih =>
    simp only [List.map_cons, List.length_cons, List.range'_succ, List.cons.injEq] at h
    have hge : ∀ p ∈ l, f q < f p := by
      intro p hp
      have hm : f p ∈ l.map f := List.mem_map_of_mem hp
      rw [h.2, List.mem_range'_1] at hm; omega
    rw [List.takeWhile_cons]
    by_cases hq : f q ≤ 0xFFF
    · simp only [hq, decide_true, if_true, List.mem_cons, ih (a + 1) h.2]
      constructor
      · rintro (rfl | h)
        · exact ⟨.inl rfl, hq⟩
        · exact ⟨.inr h.1, h.2⟩
      · rintro ⟨rfl | h, h'⟩
        · exact .inl rfl
        · exact .inr ⟨h, h'⟩
    · simp only [hq, decide_false, Bool.false_eq_true, if_false, List.not_mem_nil, List.mem_cons, false_iff]
      rintro ⟨rfl | hp, h'⟩
      · exact hq h'
      · have := hge p hp; omega

theorem regsUpTo_length (x : Reg) : (regsUpTo x).length = x.val + 1 := by
  revert x; decide

theorem regStores_length {p : Config.Params} (x : Reg) (s : State p) : (regStores x s).length = x.val + 1 := by
  simp [regStores, regsUpTo_length]

theorem regLoads_length {p : Config.Params} (x : Reg) (s : State p) : (regLoads x s).length = x.val + 1 := by
  simp [regLoads, regsUpTo_length]

theorem regsUpTo_effAddr {p : Config.Params} (x : Reg) (s : State p) :
    (regsUpTo x).map (fun k => s.effAddr k.val) = List.range' s.I.toNat (x.val + 1) := by
  have h : (regsUpTo x).map (fun k => s.effAddr k.val) = ((regsUpTo x).map Fin.val).map (s.I.toNat + ·) := by
    simp [State.effAddr, Function.comp_def]
  rw [h, regsUpTo_val, List.range_eq_range', List.map_add_range', Nat.add_zero]

/-- FX55 stores at consecutive addresses from `I`. -/
theorem regStores_addrs {p : Config.Params} (x : Reg) (s : State p) :
    (regStores x s).map (·.1) = List.range' s.I.toNat (regStores x s).length := by
  rw [regStores_length, ← regsUpTo_effAddr]; simp [regStores]

/-- FX65 loads from consecutive addresses from `I`. -/
theorem regLoads_addrs {p : Config.Params} (x : Reg) (s : State p) :
    (regLoads x s).map (·.1) = List.range' s.I.toNat (regLoads x s).length := by
  rw [regLoads_length, ← regsUpTo_effAddr]; simp [regLoads]

/-- FX65 loads V0..Vx, each once. -/
theorem regLoads_regs {p : Config.Params} (x : Reg) (s : State p) : (regLoads x s).map (·.2) = regsUpTo x := by
  simp [regLoads, Function.comp_def]

/-- FX33 stores at `I`, `I + 1` and `I + 2`. -/
theorem bcdStores_addrs {p : Config.Params} (x : Reg) (s : State p) :
    (bcdStores x s).map (·.1) = List.range' s.I.toNat (bcdStores x s).length := by
  simp [bcdStores, State.effAddr, List.range']

/-- The row reads of DXYN end at the first row address above 0xFFF. -/
theorem find_row_above (base n : Nat) :
    ((List.range n).find? fun k => decide (0xFFF < base + k)).map (base + ·) =
      if n = 0 ∨ base + n ≤ 0x1000 then none else some (max base 0x1000) := by
  have h := find_above (base + ·) (List.range n) base (by rw [List.range_eq_range', List.map_add_range']; simp)
  simpa using h

/-- The rows DXYN draws are those at addresses up to 0xFFF. -/
theorem mem_drawnRows (base n k : Nat) : k ∈ drawnRows base (List.range n) ↔ k < min n (0x1000 - base) := by
  have h := mem_takeWhile_below (base + ·) (List.range n) base
    (by rw [List.range_eq_range', List.map_add_range']; simp) k
  unfold drawnRows
  rw [h, List.mem_range]
  omega

/-! ### Operands as numbers -/

@[simp] theorem toNat_zextAddr (nnn : Addr) : (zextAddr nnn).toNat = nnn.toNat := by
  have := nnn.isLt
  simp only [zextAddr, BitVec.toNat_setWidth]
  omega

/-- `nnn + V0` never wraps (40_control.md R108). -/
theorem toNat_offsetAddr (nnn : Addr) (v0 : Byte) : (offsetAddr nnn v0).toNat = nnn.toNat + v0.toNat := by
  have := nnn.isLt
  have := v0.isLt
  simp only [offsetAddr, BitVec.toNat_add, toNat_zextAddr, BitVec.toNat_setWidth]
  omega

/-- `0x050 + 5 * Vx` never wraps (43_display.md R194). -/
theorem toNat_fontAddr (v : Byte) : (fontAddr v).toNat = 0x050 + 5 * v.toNat := by
  have := v.isLt
  simp only [fontAddr, BitVec.toNat_ofNat]
  omega

theorem lowestPressed_none {n : Nat} {keypad : Vector Bool n} (h : ∀ k : Fin n, keypad[k] = false) :
    lowestPressed keypad = none := by
  rw [lowestPressed, List.find?_eq_none]
  intro k _
  simpa using h k

/-- The key FX0A stores is the one that is pressed with no lower one pressed. -/
theorem lowestPressed_some {n : Nat} {keypad : Vector Bool n} {k : Fin n} :
    lowestPressed keypad = some k ↔ keypad[k] = true ∧ ∀ j : Fin n, j < k → keypad[j] = false := by
  rw [lowestPressed, List.find?_eq_some_iff_getElem]
  refine and_congr_right fun _ => ⟨?_, fun h => ⟨k.val, by simp, by simp, fun j hj => ?_⟩⟩
  · rintro ⟨i, hi, rfl, h⟩ j hj
    have hj : j.val < i := by simpa [Fin.lt_def] using hj
    simpa using h j.val hj
  · have hj' : (⟨j, Nat.lt_trans hj k.isLt⟩ : Fin n) < k := hj
    simpa using h _ hj'

end Sys2Proof.Machine
end

