-- ==== Sys2Proof/Laws/Configured.lean ====
section
/-! SUPPORT. What the shared operations do under any configuration (00_scope.md R7): where a run of accesses ends, and what
writing a pixel and drawing a row do. The lemmas of Laws/Ops.lean and Laws/Display.lean say more, at this hardware's. -/

namespace Sys2Proof.Machine

variable {p : Config.Params}

/-! ### Runs of accesses -/

/-- A run of stores ends at its first address past the memory, if there is one, and leaves pc alone. -/
theorem storeAll_under (l : List (Nat × Byte)) (s : State p) :
    (storeAll l s).2 = (l.find? fun q => decide (p.memSize ≤ q.1)).map (·.1) ∧ (storeAll l s).1.pc = s.pc := by
  induction l generalizing s with
  | nil => exact ⟨rfl, rfl⟩
  | cons q l ih =>
    obtain ⟨a, v⟩ := q
    by_cases h : p.memSize ≤ a
    · simp [storeAll, State.memWrite, h]
    · have ih := ih (s.setMem (s.mem.write a v p))
      simp only [storeAll, State.memWrite, h, if_false, ih.1]
      simpa [h] using ih.2

/-- A run of loads ends at its first address past the memory, if there is one, and leaves pc alone. -/
theorem loadAll_under (l : List (Nat × Reg)) (s : State p) :
    (loadAll l s).2 = (l.find? fun q => decide (p.memSize ≤ q.1)).map (·.1) ∧ (loadAll l s).1.pc = s.pc := by
  induction l generalizing s with
  | nil => exact ⟨rfl, rfl⟩
  | cons q l ih =>
    obtain ⟨a, k⟩ := q
    by_cases h : p.memSize ≤ a
    · simp [loadAll, State.memRead, h]
    · have ih := ih (s.setReg k (s.byteAt a))
      simp only [loadAll, State.memRead, h, if_false, ih.1]
      simpa [h] using ih.2

/-- A draw ends at its first row address past the memory, if there is one. -/
theorem drawRows_under (s : State p) (base cx cy : Nat) (rs : List Nat) (d : Framebuffer p × Bool) :
    (drawRows s base cx cy rs d).2 = (rs.find? fun k => decide (p.memSize ≤ base + k)).map (base + ·) := by
  induction rs generalizing d with
  | nil => rfl
  | cons k rs ih =>
    by_cases h : p.memSize ≤ base + k
    · simp [drawRows, State.memRead, h]
    · simp [drawRows, State.memRead, h, ih]

/-- `finish` answers a next state: OK where the run ended nowhere, else the fault at the address where it did. -/
theorem finish_under (i : Instr) (q : State p × Option Nat) :
    (q.2 = none → finish i q = .next (q.1.setStepResult .ok)) ∧
    (∀ a, q.2 = some a → finish i q = .next (q.1.setStepResult (.fault (.memoryBoundsError a) (q.1.pc - 2) (encode i)))) := by
  obtain ⟨s, _ | a⟩ := q
  · exact ⟨fun _ => rfl, fun _ h => by cases h⟩
  · exact ⟨fun h => (by cases h), fun _ h => (by cases h; rfl)⟩

/-! ### Drawing -/

/-- A pixel after one is written. -/
theorem pixel_setPixel_under (f : Framebuffer p) (row r : Fin p.fbH) (col c : Fin p.fbW) (b : Bool) :
    pixel (setPixel f row col b) r c = if r = row ∧ c = col then b else pixel f r c := by
  have hrow : (setPixel f row col b)[r] = if r = row then f[row].set col.val b else f[r] := by
    by_cases hr : r = row
    · subst hr; simp [setPixel]
    · have hne : ¬ row.val = r.val := fun e => hr (Fin.ext e.symm)
      simp [setPixel, hr, hne]
  unfold pixel
  rw [hrow]
  by_cases hr : r = row
  · subst hr
    by_cases hc : c = col
    · subst hc; simp
    · have hne : ¬ col.val = c.val := fun e => hc (Fin.ext e.symm)
      simp [hc, hne]
  · simp [hr]

/-- A row byte of zeros draws nothing. -/
theorem drawBits_zero (cx : Nat) (row : Fin p.fbH) (bs : List Nat) (d : Framebuffer p × Bool) :
    drawBits 0 cx row bs d = d := by
  induction bs with
  | nil => rfl
  | cons b bs ih => rw [drawBits, if_neg (by simp), ih]

/-- A row byte with one 1 bit, bit `7 - b`, plots one pixel. -/
theorem drawBits_single {b : Nat} (hb : b < 8) (cx : Nat) (row : Fin p.fbH) (d : Framebuffer p × Bool) :
    drawBits ((0x80 : Byte) >>> b) cx row (List.range 8) d = plot row (spriteCol cx b p) d := by
  have hbit : ∀ b < 8, ∀ c < 8, ((0x80 : Byte) >>> b).getLsbD (7 - c) = decide (c = b) := by decide
  have key : ∀ bs : List Nat, (∀ c ∈ bs, c < 8) → bs.Nodup → ∀ d,
      drawBits ((0x80 : Byte) >>> b) cx row bs d = if b ∈ bs then plot row (spriteCol cx b p) d else d := by
    intro bs h8 hd
    induction bs with
    | nil => intro d; rfl
    | cons c bs ih =>
      intro d
      rw [List.nodup_cons] at hd
      rw [drawBits, ih (fun c hc => h8 c (List.mem_cons_of_mem _ hc)) hd.2, hbit b hb c (h8 c (by simp))]
      by_cases hc : c = b
      · subst hc; simp [hd.1]
      · simp [hc, Ne.symm hc]
  rw [key _ (fun c hc => List.mem_range.mp hc) List.nodup_range, if_pos (List.mem_range.mpr hb)]

/-- The rows of a sprite in memory with one 1 bit, bit `7 - b` of row `r`, plot one pixel. -/
theorem drawRows_single {s : State p} {base r b : Nat} (hb : b < 8) (cx cy : Nat) {rs : List Nat} (hd : rs.Nodup)
    (hm : ∀ k ∈ rs, base + k < p.memSize) (hbyte : ∀ k ∈ rs, s.byteAt (base + k) = if k = r then (0x80 : Byte) >>> b else 0)
    (d : Framebuffer p × Bool) :
    drawRows s base cx cy rs d = (if r ∈ rs then plot (spriteRow cy r p) (spriteCol cx b p) d else d, none) := by
  induction rs generalizing d with
  | nil => rfl
  | cons k rs ih =>
    rw [List.nodup_cons] at hd
    have hk : ¬ p.memSize ≤ base + k := Nat.not_le.mpr (hm k (by simp))
    have ih := ih hd.2 (fun j hj => hm j (List.mem_cons_of_mem _ hj)) fun j hj => hbyte j (List.mem_cons_of_mem _ hj)
    simp only [drawRows, State.memRead, hk, if_false, ih, hbyte k (by simp)]
    by_cases h : k = r
    · subst h
      rw [if_neg hd.1, if_pos rfl, drawBits_single hb, if_pos (by simp)]
    · rw [if_neg h, drawBits_zero]
      simp only [List.mem_cons, Ne.symm h, false_or]

end Sys2Proof.Machine
end

