-- ==== Sys2Proof/Laws/Decode.lean ====
section
/-! SUPPORT. The value of a composed word and of each field of a word as numbers, and what follows: the fields of a composed
word are its parts, and a word is composed of its fields. -/

namespace Sys2Proof

/-! ### Values -/

theorem toNat_append (n m : Nat) (a : BitVec n) (b : BitVec m) : (a ++ b).toNat = a.toNat * 2 ^ m + b.toNat := by
  rw [BitVec.toNat_append, Nat.shiftLeft_eq, Nat.mul_comm, Nat.two_pow_add_eq_or_of_lt b.isLt]

@[simp] theorem toNat_nibble (k : Fin 16) : (nibble k).toNat = k.val := by
  revert k; decide

theorem toNat_wordA (f : BitVec 4) (nnn : Addr) : (wordA f nnn).toNat = f.toNat * 4096 + nnn.toNat :=
  toNat_append 4 12 f nnn

theorem toNat_wordXB (f : BitVec 4) (x : Reg) (nn : Byte) :
    (wordXB f x nn).toNat = f.toNat * 4096 + x.val * 256 + nn.toNat := by
  have h : (wordXB f x nn).toNat = (f ++ nibble x).toNat * 2 ^ 8 + nn.toNat := toNat_append 8 8 (f ++ nibble x) nn
  rw [h, toNat_append 4 4, toNat_nibble]
  omega

theorem toNat_wordXYN (f : BitVec 4) (x y : Reg) (n : Fin 16) :
    (wordXYN f x y n).toNat = f.toNat * 4096 + x.val * 256 + y.val * 16 + n.val := by
  have h : (wordXYN f x y n).toNat = (f ++ nibble x ++ nibble y).toNat * 2 ^ 4 + (nibble n).toNat :=
    toNat_append 12 4 (f ++ nibble x ++ nibble y) (nibble n)
  have h' : (f ++ nibble x ++ nibble y).toNat = (f ++ nibble x).toNat * 2 ^ 4 + (nibble y).toNat :=
    toNat_append 8 4 (f ++ nibble x) (nibble y)
  rw [h, h', toNat_append 4 4, toNat_nibble, toNat_nibble, toNat_nibble]
  omega

/-- The big-endian word is 256 times its first byte plus its second (20_memory.md R54). -/
theorem toNat_wordOfBytes (hi lo : Byte) : (wordOfBytes hi lo).toNat = 256 * hi.toNat + lo.toNat := by
  have h : (wordOfBytes hi lo).toNat = hi.toNat * 2 ^ 8 + lo.toNat := toNat_append 8 8 hi lo
  omega

theorem toNat_fieldFirst (op : Word) : (fieldFirst op).toNat = op.toNat / 4096 := by
  have := op.isLt
  simp only [fieldFirst, BitVec.extractLsb'_toNat, Nat.shiftRight_eq_div_pow]
  omega

theorem val_fieldX (op : Word) : (fieldX op).val = op.toNat / 256 % 16 := by
  simp [fieldX, nibbleVal, BitVec.extractLsb'_toNat, Nat.shiftRight_eq_div_pow]

theorem val_fieldY (op : Word) : (fieldY op).val = op.toNat / 16 % 16 := by
  simp [fieldY, nibbleVal, BitVec.extractLsb'_toNat, Nat.shiftRight_eq_div_pow]

theorem val_fieldN (op : Word) : (fieldN op).val = op.toNat % 16 := by
  simp [fieldN, nibbleVal, BitVec.extractLsb'_toNat]

theorem toNat_fieldNN (op : Word) : (fieldNN op).toNat = op.toNat % 256 := by
  simp [fieldNN, BitVec.extractLsb'_toNat]

theorem toNat_fieldNNN (op : Word) : (fieldNNN op).toNat = op.toNat % 4096 := by
  simp [fieldNNN, BitVec.extractLsb'_toNat]

/-! ### The fields of a composed word -/

section
variable (f : BitVec 4) (nnn : Addr) (x y : Reg) (nn : Byte) (n : Fin 16)

@[simp] theorem fieldFirst_wordA : fieldFirst (wordA f nnn) = f := by
  have := f.isLt; have := nnn.isLt
  apply BitVec.eq_of_toNat_eq
  rw [toNat_fieldFirst, toNat_wordA]; omega

@[simp] theorem fieldNNN_wordA : fieldNNN (wordA f nnn) = nnn := by
  have := nnn.isLt
  apply BitVec.eq_of_toNat_eq
  rw [toNat_fieldNNN, toNat_wordA]; omega

@[simp] theorem fieldFirst_wordXB : fieldFirst (wordXB f x nn) = f := by
  have := f.isLt; have := nn.isLt; have := x.isLt
  apply BitVec.eq_of_toNat_eq
  rw [toNat_fieldFirst, toNat_wordXB]; omega

@[simp] theorem fieldX_wordXB : fieldX (wordXB f x nn) = x := by
  have := nn.isLt; have := x.isLt
  apply Fin.ext
  rw [val_fieldX, toNat_wordXB]; omega

@[simp] theorem fieldNN_wordXB : fieldNN (wordXB f x nn) = nn := by
  have := nn.isLt
  apply BitVec.eq_of_toNat_eq
  rw [toNat_fieldNN, toNat_wordXB]; omega

@[simp] theorem fieldFirst_wordXYN : fieldFirst (wordXYN f x y n) = f := by
  have := f.isLt; have := x.isLt; have := y.isLt; have := n.isLt
  apply BitVec.eq_of_toNat_eq
  rw [toNat_fieldFirst, toNat_wordXYN]; omega

@[simp] theorem fieldX_wordXYN : fieldX (wordXYN f x y n) = x := by
  have := x.isLt; have := y.isLt; have := n.isLt
  apply Fin.ext
  rw [val_fieldX, toNat_wordXYN]; omega

@[simp] theorem fieldY_wordXYN : fieldY (wordXYN f x y n) = y := by
  have := y.isLt; have := n.isLt
  apply Fin.ext
  rw [val_fieldY, toNat_wordXYN]; omega

@[simp] theorem fieldN_wordXYN : fieldN (wordXYN f x y n) = n := by
  have := n.isLt
  apply Fin.ext
  rw [val_fieldN, toNat_wordXYN]; omega

end

/-! ### A word from its fields -/

theorem wordA_fields (op : Word) : wordA (fieldFirst op) (fieldNNN op) = op := by
  apply BitVec.eq_of_toNat_eq
  rw [toNat_wordA, toNat_fieldFirst, toNat_fieldNNN]; omega

theorem wordXB_fields (op : Word) : wordXB (fieldFirst op) (fieldX op) (fieldNN op) = op := by
  apply BitVec.eq_of_toNat_eq
  rw [toNat_wordXB, toNat_fieldFirst, val_fieldX, toNat_fieldNN]; omega

theorem wordXYN_fields (op : Word) : wordXYN (fieldFirst op) (fieldX op) (fieldY op) (fieldN op) = op := by
  apply BitVec.eq_of_toNat_eq
  rw [toNat_wordXYN, toNat_fieldFirst, val_fieldX, val_fieldY, val_fieldN]; omega

/-! ### What the decoder can answer -/

/-- The group a word decodes in, by its first nibble. -/
theorem decode_cases (op : Word) :
    ((fieldFirst op).toNat = 0x0 ∧ decode op = decodeGroup0 op) ∨
    ((fieldFirst op).toNat = 0x1 ∧ decode op = some (.jp (fieldNNN op))) ∨
    ((fieldFirst op).toNat = 0x2 ∧ decode op = some (.call (fieldNNN op))) ∨
    ((fieldFirst op).toNat = 0x3 ∧ decode op = some (.seByte (fieldX op) (fieldNN op))) ∨
    ((fieldFirst op).toNat = 0x4 ∧ decode op = some (.sneByte (fieldX op) (fieldNN op))) ∨
    ((fieldFirst op).toNat = 0x5 ∧
      decode op = if (fieldN op).val = 0 then some (.seReg (fieldX op) (fieldY op)) else none) ∨
    ((fieldFirst op).toNat = 0x6 ∧ decode op = some (.ldByte (fieldX op) (fieldNN op))) ∨
    ((fieldFirst op).toNat = 0x7 ∧ decode op = some (.addByte (fieldX op) (fieldNN op))) ∨
    ((fieldFirst op).toNat = 0x8 ∧ decode op = decodeGroup8 op) ∨
    ((fieldFirst op).toNat = 0x9 ∧
      decode op = if (fieldN op).val = 0 then some (.sneReg (fieldX op) (fieldY op)) else none) ∨
    ((fieldFirst op).toNat = 0xA ∧ decode op = some (.ldI (fieldNNN op))) ∨
    ((fieldFirst op).toNat = 0xB ∧ decode op = some (.jpV0 (fieldNNN op))) ∨
    ((fieldFirst op).toNat = 0xC ∧ decode op = some (.rnd (fieldX op) (fieldNN op))) ∨
    ((fieldFirst op).toNat = 0xD ∧ decode op = some (.drw (fieldX op) (fieldY op) (fieldN op))) ∨
    ((fieldFirst op).toNat = 0xE ∧ decode op = decodeGroupE op) ∨
    ((fieldFirst op).toNat = 0xF ∧ decode op = decodeGroupF op) := by
  unfold decode
  have hlt := (fieldFirst op).isLt
  have hk : (fieldFirst op).toNat ∈ List.range 16 := List.mem_range.mpr hlt
  simp only [List.range, List.range.loop, List.mem_cons, List.not_mem_nil, or_false] at hk
  rcases hk with h | h | h | h | h | h | h | h | h | h | h | h | h | h | h | h <;> simp [h]

theorem decodeGroup8_none (op : Word) :
    decodeGroup8 op = none ↔ (fieldN op).val ∉ [0x0, 0x1, 0x2, 0x3, 0x4, 0x5, 0x6, 0x7, 0xE] := by
  unfold decodeGroup8
  generalize (fieldN op).val = k
  split <;> simp_all

theorem decodeGroupE_none (op : Word) : decodeGroupE op = none ↔ (fieldNN op).toNat ∉ [0x9E, 0xA1] := by
  unfold decodeGroupE
  generalize (fieldNN op).toNat = k
  split <;> simp_all

theorem decodeGroupF_none (op : Word) :
    decodeGroupF op = none ↔ (fieldNN op).toNat ∉ [0x07, 0x0A, 0x15, 0x18, 0x1E, 0x29, 0x33, 0x55, 0x65] := by
  unfold decodeGroupF
  generalize (fieldNN op).toNat = k
  split <;> simp_all

/-! ### The host's word -/

/-- The two bytes of a 16-bit table word compose the word. -/
theorem wordOfBytes_tableBytes (w : Word) :
    wordOfBytes (tableBytes 16 w.toNat).1 (tableBytes 16 w.toNat).2 = w := by
  have := w.isLt
  apply BitVec.eq_of_toNat_eq
  rw [toNat_wordOfBytes]
  simp only [tableBytes, BitVec.toNat_ofNat]
  omega

end Sys2Proof
end

