-- ==== Sys2Proof/Laws/PerInstr.lean ====
section
/-! SUPPORT. Family `TableRow`: the word of an instruction has the fixed bits of its row of spec/opcode_table.json, for every
value of the operands. -/

namespace Sys2Proof

theorem and_append_append {n m : Nat} (a c : BitVec n) (b d : BitVec m) :
    (a ++ b) &&& (c ++ d) = (a &&& c) ++ (b &&& d) := by
  ext i hi; simp [BitVec.getElem_append]

theorem and_fifteen (f : BitVec 4) : f &&& 15#4 = f := by
  revert f; decide

section
variable (f : BitVec 4) (nnn : Addr) (x y : Reg) (nn : Byte) (n : Fin 16)

/-- Format A under the mask of its first nibble. -/
theorem wordA_first : wordA f nnn &&& 0xF000 = f ++ 0#12 := by
  show (f ++ nnn) &&& (15#4 ++ 0#12) = _
  rw [and_append_append, and_fifteen, BitVec.and_zero]

/-- Format XB under the mask of its first nibble. -/
theorem wordXB_first : wordXB f x nn &&& 0xF000 = f ++ 0#4 ++ 0#8 := by
  show (f ++ nibble x ++ nn) &&& (15#4 ++ 0#4 ++ 0#8) = _
  rw [and_append_append, and_append_append, and_fifteen, BitVec.and_zero, BitVec.and_zero]

/-- Format XF under the mask of its first nibble and its fixed byte. -/
theorem wordXB_fixed : wordXB f x nn &&& 0xF0FF = f ++ 0#4 ++ nn := by
  show (f ++ nibble x ++ nn) &&& (15#4 ++ 0#4 ++ BitVec.allOnes 8) = _
  rw [and_append_append, and_append_append, and_fifteen, BitVec.and_zero, BitVec.and_allOnes]

/-- Format XY under the mask of its first nibble and its fixed n. -/
theorem wordXYN_fixed : wordXYN f x y n &&& 0xF00F = f ++ 0#4 ++ 0#4 ++ nibble n := by
  show (f ++ nibble x ++ nibble y ++ nibble n) &&& (15#4 ++ 0#4 ++ 0#4 ++ 15#4) = (f ++ 0#4 ++ 0#4 ++ nibble n : BitVec 16)
  rw [and_append_append, and_append_append, and_append_append, and_fifteen, and_fifteen, BitVec.and_zero, BitVec.and_zero]

/-- Format XYN under the mask of its first nibble. -/
theorem wordXYN_first : wordXYN f x y n &&& 0xF000 = f ++ 0#4 ++ 0#4 ++ 0#4 := by
  show (f ++ nibble x ++ nibble y ++ nibble n) &&& (15#4 ++ 0#4 ++ 0#4 ++ 0#4) = (f ++ 0#4 ++ 0#4 ++ 0#4 : BitVec 16)
  rw [and_append_append, and_append_append, and_append_append, and_fifteen, BitVec.and_zero, BitVec.and_zero,
    BitVec.and_zero]

end

namespace Laws.TableRow

/-- The word of `i` under the row's mask is the row's match. -/
def Statement (i : Instr) : Prop := encode i &&& i.row.2 = i.row.1

theorem cls : Statement .cls := rfl
theorem ret : Statement .ret := rfl
theorem jp (nnn : Addr) : Statement (.jp nnn) := wordA_first ..
theorem call (nnn : Addr) : Statement (.call nnn) := wordA_first ..
theorem seByte (x : Reg) (nn : Byte) : Statement (.seByte x nn) := wordXB_first ..
theorem sneByte (x : Reg) (nn : Byte) : Statement (.sneByte x nn) := wordXB_first ..
theorem seReg (x y : Reg) : Statement (.seReg x y) := wordXYN_fixed ..
theorem ldByte (x : Reg) (nn : Byte) : Statement (.ldByte x nn) := wordXB_first ..
theorem addByte (x : Reg) (nn : Byte) : Statement (.addByte x nn) := wordXB_first ..
theorem ldReg (x y : Reg) : Statement (.ldReg x y) := wordXYN_fixed ..
theorem orReg (x y : Reg) : Statement (.orReg x y) := wordXYN_fixed ..
theorem andReg (x y : Reg) : Statement (.andReg x y) := wordXYN_fixed ..
theorem xorReg (x y : Reg) : Statement (.xorReg x y) := wordXYN_fixed ..
theorem addReg (x y : Reg) : Statement (.addReg x y) := wordXYN_fixed ..
theorem subReg (x y : Reg) : Statement (.subReg x y) := wordXYN_fixed ..
theorem shrReg (x y : Reg) : Statement (.shrReg x y) := wordXYN_fixed ..
theorem subnReg (x y : Reg) : Statement (.subnReg x y) := wordXYN_fixed ..
theorem shlReg (x y : Reg) : Statement (.shlReg x y) := wordXYN_fixed ..
theorem sneReg (x y : Reg) : Statement (.sneReg x y) := wordXYN_fixed ..
theorem ldI (nnn : Addr) : Statement (.ldI nnn) := wordA_first ..
theorem jpV0 (nnn : Addr) : Statement (.jpV0 nnn) := wordA_first ..
theorem rnd (x : Reg) (nn : Byte) : Statement (.rnd x nn) := wordXB_first ..
theorem drw (x y : Reg) (n : Fin 16) : Statement (.drw x y n) := wordXYN_first ..
theorem skp (x : Reg) : Statement (.skp x) := wordXB_fixed ..
theorem sknp (x : Reg) : Statement (.sknp x) := wordXB_fixed ..
theorem ldVxDt (x : Reg) : Statement (.ldVxDt x) := wordXB_fixed ..
theorem ldVxK (x : Reg) : Statement (.ldVxK x) := wordXB_fixed ..
theorem ldDtVx (x : Reg) : Statement (.ldDtVx x) := wordXB_fixed ..
theorem ldStVx (x : Reg) : Statement (.ldStVx x) := wordXB_fixed ..
theorem addI (x : Reg) : Statement (.addI x) := wordXB_fixed ..
theorem ldF (x : Reg) : Statement (.ldF x) := wordXB_fixed ..
theorem ldB (x : Reg) : Statement (.ldB x) := wordXB_fixed ..
theorem stRegs (x : Reg) : Statement (.stRegs x) := wordXB_fixed ..
theorem ldRegs (x : Reg) : Statement (.ldRegs x) := wordXB_fixed ..

end Laws.TableRow

end Sys2Proof
end

