-- ==== Sys2Proof/Laws/WellFormed.lean ====
section
/-! SUPPORT. Every instruction is well-formed: the operand types carry the ranges. -/

namespace Sys2Proof

theorem Instr.wf_all (i : Instr) : i.wf = true := by
  cases i <;> simp [Instr.wf, WellFormed.regOk, WellFormed.byteOk, WellFormed.addrOk, WellFormed.countOk] <;> omega

end Sys2Proof
end

