-- ==== Sys2Proof/Tests/Slice0.lean ====
section
/-! SUPPORT. Tests. Every expected value is from the spec: the encodings of 30_encoding.md R72, R76 and the vectors of
95_test_vectors.md, named in the comments (S1.., V-E1.. and so on), computed there by hand from the rules. Then, for each
obligation that has hypotheses, states and operands that meet them. -/

open Sys2Proof Sys2Proof.Machine

namespace Sys2Proof.Tests

/-- `s` with bytes written. -/
def withBytes (l : List (Nat × Byte)) (s : State) : State := l.foldl (fun s p => s.setMem (s.mem.write p.1 p.2)) s

/-- `s` with registers written. -/
def withRegs (l : List (Reg × Byte)) (s : State) : State := l.foldl (fun s p => s.setReg p.1 p.2) s

/-- `s` after one STEP, with a random byte, of the word `w` at its pc. -/
def after (w : Nat) (s : State) (rand : Byte := 0) : State :=
  match opStep rand (s.withFetchWord 16 w) with
  | .next t => t
  | .fault _ => s
  | .refused _ => s

/-- `s` after one operation. -/
def performed (op : Operation) (s : State) : State :=
  match perform op s with
  | .next t => t
  | .fault _ => s
  | .refused _ => s

/-- The reset state with registers written. -/
def regs (l : List (Reg × Byte)) : State := withRegs l State.reset

/-- The reset state with `I` and registers written. -/
def atI (i : Word) (l : List (Reg × Byte)) : State := (regs l).setI i

/-- The reset state with one pixel 1. -/
def lit (row : Fin 32) (col : Fin 64) : State := State.reset.setFb (setPixel blankFb row col true)

/-- The reset state with some keys pressed. -/
def keys (l : List Key) : State := l.foldl (fun s k => performed (.setKey k true) s) State.reset

/-- A configuration that differs from this hardware's in every parameter but the font and the free values (R7). -/
abbrev otherParams : Config.Params :=
  { memSize := 0x2000, numV := 32, pcWidth := 20, iWidth := 24, stackDepth := 12, stackEntryWidth := 14, fbW := 128, fbH := 64,
    numKeys := 32, fontBase := 0x100, programBase := 0x600, shiftSource := .vx, keyIndexPolicy := .maskLowNibble }

/-! ### Decode: a word of every constructor, written out from the formats -/

theorem test_decode_display : decode 0x00E0 = some .cls ∧ decode 0xD125 = some (.drw 1 2 5) ∧
    decode 0xFA29 = some (.ldF 0xA) := by decide

theorem test_decode_control : decode 0x00EE = some .ret ∧ decode 0x1ABC = some (.jp 0xABC) ∧
    decode 0x2DEF = some (.call 0xDEF) ∧ decode 0x3A45 = some (.seByte 0xA 0x45) ∧
    decode 0x4B67 = some (.sneByte 0xB 0x67) ∧ decode 0x5CD0 = some (.seReg 0xC 0xD) ∧
    decode 0x9EF0 = some (.sneReg 0xE 0xF) ∧ decode 0xB123 = some (.jpV0 0x123) := by decide

theorem test_decode_alu : decode 0x6A2F = some (.ldByte 0xA 0x2F) ∧ decode 0x7BFE = some (.addByte 0xB 0xFE) ∧
    decode 0x8120 = some (.ldReg 1 2) ∧ decode 0x8341 = some (.orReg 3 4) ∧ decode 0x8562 = some (.andReg 5 6) ∧
    decode 0x8783 = some (.xorReg 7 8) ∧ decode 0x89A4 = some (.addReg 9 0xA) ∧ decode 0x8BC5 = some (.subReg 0xB 0xC) ∧
    decode 0x8DE6 = some (.shrReg 0xD 0xE) ∧ decode 0x8F07 = some (.subnReg 0xF 0) ∧
    decode 0x812E = some (.shlReg 1 2) ∧ decode 0xC30F = some (.rnd 3 0x0F) := by decide

theorem test_decode_index : decode 0xA300 = some (.ldI 0x300) ∧ decode 0xF31E = some (.addI 3) ∧
    decode 0xF433 = some (.ldB 4) ∧ decode 0xF555 = some (.stRegs 5) ∧ decode 0xF665 = some (.ldRegs 6) := by decide

theorem test_decode_timer_key : decode 0xE59E = some (.skp 5) ∧ decode 0xE6A1 = some (.sknp 6) ∧
    decode 0xF707 = some (.ldVxDt 7) ∧ decode 0xF80A = some (.ldVxK 8) ∧ decode 0xF915 = some (.ldDtVx 9) ∧
    decode 0xFA18 = some (.ldStVx 0xA) := by decide

/-- V-E1 to V-E10, and 0x00EF: words that decode to nothing. -/
theorem test_decode_none : decode 0x0000 = none ∧ decode 0x0123 = none ∧ decode 0x0FFF = none ∧ decode 0x01E0 = none ∧
    decode 0x00EF = none ∧ decode 0x5121 = none ∧ decode 0x9121 = none ∧ decode 0x8128 = none ∧ decode 0x812F = none ∧
    decode 0xE0FF = none ∧ decode 0xF0FF = none := by decide

/-- Bytes are rejected by name, and the bytes after an instruction are left over. -/
theorem test_decode_bytes : decodeBytes [0x12] = .error .truncated ∧
    decodeBytes [0x51, 0x21] = .error (.unknownOpcode 0x5121) ∧
    decodeBytes [0x1A, 0xBC, 0x00] = .ok (.jp 0xABC, [0x00]) := ⟨rfl, rfl, rfl⟩

theorem test_encode : encode (.drw 1 2 5) = 0xD125 ∧ encode (.ldRegs 0xF) = 0xFF65 ∧ encode (.call 0xDEF) = 0x2DEF ∧
    encode (.shlReg 1 2) = 0x812E := by decide

/-- The syntax of R82, from the listings of the programs P1 to P7. -/
theorem test_asm : Instr.asm (.ldB 0) = "LD B, V0" ∧ Instr.asm (.drw 0 1 2) = "DRW V0, V1, 0x2" ∧
    Instr.asm (.jp 0x20C) = "JP 0x20C" ∧ Instr.asm (.addByte 0 1) = "ADD V0, 0x01" := by decide

/-! ### Ill-formed terms are refused -/

theorem test_illformed_operands : WellFormed.regOk 16 = false ∧ WellFormed.byteOk 256 = false ∧
    WellFormed.addrOk 4096 = false ∧ WellFormed.countOk 16 = false := by decide

/-- Memories out of canonical form: addresses falling, repeated, above 0xFFF, an entry equal to the unlisted byte (RAM, font). -/
theorem test_illformed_memory : Memory.wf [(0x300, 1), (0x200, 1)] = false ∧ Memory.wf [(0x200, 1), (0x200, 2)] = false ∧
    Memory.wf [(0x1000, 1)] = false ∧ Memory.wf [(0x200, 0)] = false ∧ Memory.wf [(0x050, 0xF0)] = false := by decide

/-! ### Reset, load and the host's other operations -/

/-- S15, V-R1. -/
theorem test_reset : State.reset.pc = 0x200 ∧ State.reset.byteAt 0x082 = 0xF0 ∧ State.reset.byteAt 0x083 = 0x90 ∧
    State.reset.byteAt 0x04F = 0 ∧ State.reset.byteAt 0x0A0 = 0 := by decide

/-- V-R1: RESET clears a changed state. -/
theorem test_opReset : (performed .reset (withBytes [(0x050, 1)] (atI 5 [(3, 7)]))).byteAt 0x050 = 0xF0 ∧
    (performed .reset (atI 5 [(3, 7)])).I = 0 ∧ (performed .reset (atI 5 [(3, 7)])).reg 3 = 0 := by decide

/-- V-R2, V-R3. -/
theorem test_load : (performed (.load [0x12, 0x34]) State.reset).mem = [(0x200, 0x12), (0x201, 0x34)] ∧
    (performed (.load []) State.reset).mem = [] := by decide

/-- V-R4. -/
theorem test_load_too_long : (opLoad (List.replicate 3585 1) State.reset).loadResult = .loadTooLong ∧
    (opLoad (List.replicate 3585 1) State.reset).mem = [] := by
  have h : (List.replicate 3585 (1 : Byte)).length > Config.hw.memSize - Config.hw.programBase := by
    rw [List.length_replicate]; decide
  rw [opLoad, if_pos h]
  exact ⟨rfl, rfl⟩

/-- V-K13, V-K14. -/
theorem test_tick : (performed .tick ((State.reset.setDt 2).setSt 1)).dt = 1 ∧
    (performed .tick ((State.reset.setDt 2).setSt 1)).st = 0 ∧ (performed .tick (State.reset.setSt 5)).dt = 0 := by decide

/-- V-K16. -/
theorem test_setKey : (performed (.setKey 9 true) State.reset).keypad[9] = true ∧
    (performed (.setKey 9 true) State.reset).keypad[8] = false := by decide

/-- V-R5: a STEP right after RESET, with nothing loaded. -/
theorem test_step_after_reset : (performed (.step 0) State.reset).stepResult = .fault .unknownOpcode 0x200 0x0000 ∧
    (performed (.step 0) State.reset).pc = 0x202 := by decide

/-- S12. -/
theorem test_fetch_bound : (performed (.step 0) (State.reset.setPc 0xFFF)).stepResult =
      .fault (.memoryBoundsError 0xFFF) 0xFFF 0 ∧ (performed (.step 0) (State.reset.setPc 0xFFF)).pc = 0xFFF := by decide

/-- The host's word runs as the first instruction after reset, from a state with an operation pending too. -/
theorem test_withFetchWord : (∃ t, step ((State.reset.setPending [.tick]).withFetchWord 16 0x6A2F) = .next t ∧
    t.reg 0xA = 0x2F ∧ t.pc = 0x202) := ⟨_, rfl, by decide⟩

/-- The state after reset under `otherParams`, with two operations pending: a LOAD of one word and a STEP. -/
def otherLoaded (hi lo : Byte) : State otherParams := (State.resetOf otherParams).setPending [.load [hi, lo], .step 0]

/-- The parameters are arguments of the machine (R7): under `otherParams` a program runs from 0x600, V-A23's shift is of Vx, the
glyph of 0 is at 0x100, a key index above 0x1F is masked, and the 13th call does not fit the stack. -/
theorem test_params :
    (∃ t u, performNext (otherLoaded 0x80 0x16) = .next t ∧ performNext ((t.setReg 0 0xFF).setReg 1 2) = .next u ∧
      u.reg 0 = 0x7F ∧ u.reg VF = 1 ∧ u.pc = 0x602) ∧
    (∃ t u, performNext (otherLoaded 0xE0 0x9E) = .next t ∧ performNext (opSetKey 5 true (t.setReg 0 0x25)) = .next u ∧
      u.pc = 0x604) ∧
    (∃ t u, performNext (otherLoaded 0x24 0x00) = .next t ∧
      performNext (t.setStack (List.replicate 12 0x202)) = .next u ∧
      u.stepResult = .fault .stackOverflow 0x600 0x2400 ∧ u.pc = 0x602) ∧
    (State.resetOf otherParams).byteAt 0x101 = 0x90 :=
  ⟨⟨_, _, rfl, rfl, by decide⟩, ⟨_, _, rfl, rfl, by decide⟩, ⟨_, _, rfl, rfl, by decide⟩, by decide⟩

/-- The framebuffer of `otherParams` wraps at its own size (R7, R190). -/
theorem test_params_draw : ∃ t, execUnder (.drw 0 1 1) (((State.resetOf otherParams).setReg 0 127).setI 0x100) = .next t ∧
    pixel t.fb 0 127 = true ∧ pixel t.fb 0 2 = true ∧ pixel t.fb 0 63 = false := ⟨_, rfl, by decide⟩

/-! ### Control transfer -/

/-- V-C6. -/
theorem test_ret : (after 0x00EE (State.reset.setStack [0x300])).pc = 0x300 ∧
    (after 0x00EE (State.reset.setStack [0x300])).stack = [] := by decide

/-- V-C7. -/
theorem test_ret_underflow : (after 0x00EE State.reset).stepResult = .fault .stackUnderflow 0x200 0x00EE ∧
    (after 0x00EE State.reset).pc = 0x202 := by decide

/-- V-C1, V-C2. -/
theorem test_jp : (after 0x1ABC State.reset).pc = 0xABC ∧ (after 0x1201 State.reset).pc = 0x201 := by decide

/-- V-C4. -/
theorem test_call : (after 0x2400 State.reset).pc = 0x400 ∧ (after 0x2400 State.reset).stack = [0x202] := by decide

/-- V-C5. -/
theorem test_call_overflow :
    (after 0x2400 (State.reset.setStack (List.replicate 16 0x202))).stepResult = .fault .stackOverflow 0x200 0x2400 ∧
    (after 0x2400 (State.reset.setStack (List.replicate 16 0x202))).pc = 0x202 := by decide

/-- V-C9, V-C10. -/
theorem test_seByte : (after 0x3005 (regs [(0, 5)])).pc = 0x204 ∧ (after 0x3005 (regs [(0, 4)])).pc = 0x202 := by decide

/-- V-C11, V-C12. -/
theorem test_sneByte : (after 0x4005 (regs [(0, 5)])).pc = 0x202 ∧ (after 0x4005 (regs [(0, 4)])).pc = 0x204 := by decide

/-- V-C13, V-C14. -/
theorem test_seReg : (after 0x5010 (regs [(0, 1), (1, 1)])).pc = 0x204 ∧
    (after 0x5010 (regs [(0, 1), (1, 2)])).pc = 0x202 := by decide

/-- V-C16, V-C17. -/
theorem test_sneReg : (after 0x9010 (regs [(0, 1), (1, 2)])).pc = 0x204 ∧
    (after 0x9010 (regs [(0, 1), (1, 1)])).pc = 0x202 := by decide

/-- V-C20, V-C21. -/
theorem test_jpV0 : (after 0xBFFF (regs [(0, 0xFF)])).pc = 0x10FE ∧ (after 0xB123 (regs [(1, 0x50)])).pc = 0x123 := by decide

/-! ### Register arithmetic -/

/-- V-A1. -/
theorem test_ldByte : (after 0x6A2F State.reset).reg 0xA = 0x2F := by decide

/-- V-A3, V-A4. -/
theorem test_addByte : (after 0x70FF (regs [(0, 1), (VF, 7)])).reg 0 = 0 ∧
    (after 0x70FF (regs [(0, 1), (VF, 7)])).reg VF = 7 ∧ (after 0x7FFF (regs [(VF, 2)])).reg VF = 1 := by decide

/-- V-A5. -/
theorem test_ldReg : (after 0x8010 (regs [(1, 0x42)])).reg 0 = 0x42 := by decide

/-- V-A6. -/
theorem test_orReg : (after 0x8011 (regs [(0, 0xF0), (1, 0x0F), (VF, 0x55)])).reg 0 = 0xFF ∧
    (after 0x8011 (regs [(0, 0xF0), (1, 0x0F), (VF, 0x55)])).reg VF = 0x55 := by decide

/-- V-A7. -/
theorem test_andReg : (after 0x8012 (regs [(0, 0xF0), (1, 0x3C), (VF, 0x55)])).reg 0 = 0x30 := by decide

/-- V-A8, V-A9. -/
theorem test_xorReg : (after 0x8013 (regs [(0, 0xFF), (1, 0x0F)])).reg 0 = 0xF0 ∧
    (after 0x8003 (regs [(0, 0x5A)])).reg 0 = 0 := by decide

/-- S1, V-A11. -/
theorem test_addReg : (after 0x8014 (regs [(0, 0xC8), (1, 0x64)])).reg 0 = 0x2C ∧
    (after 0x8014 (regs [(0, 0xC8), (1, 0x64)])).reg VF = 1 ∧
    (after 0x8014 (regs [(0, 0x7F), (1, 0x80), (VF, 1)])).reg VF = 0 := by decide

/-- V-A13, V-A14: VF as destination and as source. -/
theorem test_addReg_flag : (after 0x8F14 (regs [(VF, 1), (1, 0xFF)])).reg VF = 1 ∧
    (after 0x80F4 (regs [(0, 0x10), (VF, 1)])).reg 0 = 0x11 ∧ (after 0x80F4 (regs [(0, 0x10), (VF, 1)])).reg VF = 0 := by decide

/-- S2, S3. -/
theorem test_subReg : (after 0x8015 (regs [(0, 5), (1, 3)])).reg 0 = 2 ∧ (after 0x8015 (regs [(0, 5), (1, 3)])).reg VF = 1 ∧
    (after 0x8015 (regs [(0, 2), (1, 5)])).reg 0 = 0xFD ∧ (after 0x8015 (regs [(0, 2), (1, 5)])).reg VF = 0 := by decide

/-- V-A15, V-A17. -/
theorem test_subReg_flag : (after 0x8015 (regs [(0, 7), (1, 7)])).reg VF = 1 ∧
    (after 0x8F15 (regs [(VF, 2), (1, 5)])).reg VF = 0 := by decide

/-- V-A22, V-A25. -/
theorem test_shrReg : (after 0x8016 (regs [(0, 0xFF), (1, 2)])).reg 0 = 1 ∧
    (after 0x8016 (regs [(0, 0xFF), (1, 2)])).reg VF = 0 ∧ (after 0x80F6 (regs [(VF, 3)])).reg 0 = 1 ∧
    (after 0x80F6 (regs [(VF, 3)])).reg VF = 1 := by decide

/-- V-A23: the shift of Vx. -/
theorem test_shrReg_vx : (shiftRight .vx 0 1 (regs [(0, 0xFF), (1, 2)])).reg 0 = 0x7F ∧
    (shiftRight .vx 0 1 (regs [(0, 0xFF), (1, 2)])).reg VF = 1 := by decide

/-- V-A19, V-A20. -/
theorem test_subnReg : (after 0x8017 (regs [(0, 3), (1, 5)])).reg 0 = 2 ∧ (after 0x8017 (regs [(0, 3), (1, 5)])).reg VF = 1 ∧
    (after 0x8017 (regs [(0, 5), (1, 3)])).reg 0 = 0xFE ∧ (after 0x8017 (regs [(0, 5), (1, 3)])).reg VF = 0 := by decide

/-- V-A26, V-A28. -/
theorem test_shlReg : (after 0x801E (regs [(0, 1), (1, 0x81)])).reg 0 = 2 ∧
    (after 0x801E (regs [(0, 1), (1, 0x81)])).reg VF = 1 ∧ (after 0x801E (regs [(1, 0x40)])).reg 0 = 0x80 := by decide

/-- V-A30. -/
theorem test_rnd : (after 0xC00F State.reset 0xAB).reg 0 = 0x0B := by decide

/-! ### Index register and memory transfers -/

/-- V-M1. -/
theorem test_ldI : (after 0xAFFF State.reset).I = 0xFFF := by decide

/-- S5, V-M3. -/
theorem test_addI : (after 0xF01E (atI 0xFFF [(0, 1)])).I = 0 ∧ (after 0xF01E (atI 0xFFF [(0, 1)])).reg VF = 1 ∧
    (after 0xFF1E (atI 0xFFF [(VF, 0xFF)])).I = 0x0FE := by decide

/-- S6. -/
theorem test_ldB : (after 0xF033 (atI 0x300 [(0, 157)])).byteAt 0x300 = 1 ∧
    (after 0xF033 (atI 0x300 [(0, 157)])).byteAt 0x301 = 5 ∧ (after 0xF033 (atI 0x300 [(0, 157)])).byteAt 0x302 = 7 := by decide

/-- V-M8. -/
theorem test_ldB_bound : (after 0xF033 (atI 0xFFE [(0, 123)])).byteAt 0xFFF = 2 ∧
    (after 0xF033 (atI 0xFFE [(0, 123)])).stepResult = .fault (.memoryBoundsError 0x1000) 0x200 0xF033 := by decide

/-- V-M9. -/
theorem test_stRegs : (after 0xF255 (atI 0x300 [(0, 1), (1, 2), (2, 3), (3, 4)])).byteAt 0x302 = 3 ∧
    (after 0xF255 (atI 0x300 [(0, 1), (1, 2), (2, 3), (3, 4)])).byteAt 0x303 = 0 ∧
    (after 0xF255 (atI 0x300 [(0, 1), (1, 2), (2, 3), (3, 4)])).I = 0x300 := by decide

/-- V-M12. -/
theorem test_stRegs_bound : (after 0xF155 (atI 0xFFF [(0, 9), (1, 8)])).byteAt 0xFFF = 9 ∧
    (after 0xF155 (atI 0xFFF [(0, 9), (1, 8)])).stepResult = .fault (.memoryBoundsError 0x1000) 0x200 0xF155 := by decide

/-- V-M13. -/
theorem test_ldRegs : (after 0xF265 (withBytes [(0x300, 1), (0x301, 5), (0x302, 7), (0x303, 9)] (atI 0x300 []))).reg 2 = 7 ∧
    (after 0xF265 (withBytes [(0x300, 1), (0x301, 5), (0x302, 7), (0x303, 9)] (atI 0x300 []))).reg 3 = 0 := by decide

/-- V-M14. -/
theorem test_ldRegs_bound : (after 0xF165 (withBytes [(0xFFF, 0x77)] (atI 0xFFF [(1, 0x99)]))).reg 0 = 0x77 ∧
    (after 0xF165 (withBytes [(0xFFF, 0x77)] (atI 0xFFF [(1, 0x99)]))).reg 1 = 0x99 ∧
    (after 0xF165 (withBytes [(0xFFF, 0x77)] (atI 0xFFF [(1, 0x99)]))).stepResult =
      .fault (.memoryBoundsError 0x1000) 0x200 0xF165 := by decide

/-! ### Display -/

/-- V-D1. -/
theorem test_cls : pixel (after 0x00E0 (lit 3 5)).fb 3 5 = false ∧
    (after 0x00E0 ((lit 3 5).setReg VF 1)).reg VF = 1 := by decide

/-- V-D2, V-D3: the columns wrap, and a pixel that was 1 collides. -/
theorem test_drw : pixel (after 0xD011 (withBytes [(0x300, 0xC0)] (atI 0x300 [(0, 63)]))).fb 0 0 = true ∧
    (after 0xD011 (withBytes [(0x300, 0xC0)] (atI 0x300 [(0, 63)]))).reg VF = 0 ∧
    (after 0xD011 (withRegs [(0, 63)] (withBytes [(0x300, 0xC0)] ((lit 0 0).setI 0x300)))).reg VF = 1 := by decide

/-- V-D8. -/
theorem test_drw_bound : pixel (after 0xD012 (withBytes [(0xFFF, 0x80)] (atI 0xFFF []))).fb 0 0 = true ∧
    (after 0xD012 (withBytes [(0xFFF, 0x80)] (atI 0xFFF []))).stepResult =
      .fault (.memoryBoundsError 0x1000) 0x200 0xD012 := by decide

/-- S7, V-D14. -/
theorem test_ldF : (after 0xF029 (regs [(0, 0xA)])).I = 0x082 ∧ (after 0xF029 (regs [(0, 0xFF)])).I = 0x54B := by decide

/-! ### Keypad and timers -/

/-- V-K1, V-K2. -/
theorem test_skp : (after 0xE09E (withRegs [(0, 5)] (keys [5]))).pc = 0x204 ∧
    (after 0xE09E (regs [(0, 5)])).pc = 0x202 := by decide

/-- V-K3, V-K4. -/
theorem test_sknp : (after 0xE0A1 (withRegs [(0, 5)] (keys [5]))).pc = 0x202 ∧
    (after 0xE0A1 (regs [(0, 5)])).pc = 0x204 := by decide

/-- V-K5: a Vx above 0xF under each key index policy. -/
theorem test_keyPressed : keyPressed .notPressed (keys [5]).keypad 0x15 = false ∧
    keyPressed .maskLowNibble (keys [5]).keypad 0x15 = true := by decide

/-- V-K10. -/
theorem test_ldVxDt : (after 0xF307 (State.reset.setDt 0x3C)).reg 3 = 0x3C := by decide

/-- V-K7, V-K8. -/
theorem test_ldVxK : (after 0xF20A (keys [7, 3])).reg 2 = 3 ∧ (after 0xF20A (keys [7, 3])).pc = 0x202 ∧
    (after 0xF20A State.reset).pc = 0x200 := by decide

/-- V-K11. -/
theorem test_ldDtVx : (after 0xF415 (regs [(4, 0x3C)])).dt = 0x3C := by decide

/-- V-K12. -/
theorem test_ldStVx : (after 0xF418 (regs [(4, 2)])).st = 2 ∧ soundActive (after 0xF418 (regs [(4, 2)])) = true := by decide

/-! ### The hypotheses of each obligation can be met, at the boundaries of their ranges -/

/-- The reset state with operations pending. -/
def asked (l : List Operation) : State := State.reset.setPending l

/-- The reset state with the word `w` at 0xFFE, pc there, and a STEP pending. -/
def atTop (w : Nat) : State := ((State.reset.setPc 0xFFE).withFetchWord 16 w).setPending [.step 0x5A]

theorem test_meets_DecodeOfEncode : Instr.wf (.drw 15 15 15) = true ∧ Instr.wf (.jp 0xFFF) = true ∧
    Instr.wf (.rnd 15 0xFF) = true := by decide

theorem test_meets_EncodeOfDecode : decode 0xFF65 = some (.ldRegs 0xF) := by decide

theorem test_meets_TableWordDecodesAndRuns : State.reset.mem.wf = true ∧ (State.reset.setPc 0xFFE).pc.toNat ≤ 0xFFE ∧
    ¬ (State.reset.setPc 0xFFF).pc.toNat ≤ 0xFFE := by decide

theorem test_meets_StepRunsDecodedInstruction : (atTop 0x6A2F).pc.toNat ≤ 0xFFE ∧
    (0x6A2F : Word).toNat = 256 * ((atTop 0x6A2F).byteAt 0xFFE).toNat + ((atTop 0x6A2F).byteAt 0xFFF).toNat ∧
    decode 0x6A2F = some (.ldByte 0xA 0x2F) ∧ (atTop 0x6A2F).pending = .step 0x5A :: [] ∧
    ((atTop 0x6A2F).setPending []).pending = [] := by decide

theorem test_meets_UnknownOpcodeStep : (atTop 0x5121).pc.toNat ≤ 0xFFE ∧
    (0x5121 : Word).toNat = 256 * ((atTop 0x5121).byteAt 0xFFE).toNat + ((atTop 0x5121).byteAt 0xFFF).toNat ∧
    decode 0x5121 = none ∧ (atTop 0x5121).pending = .step 0x5A :: [] := by decide

theorem test_meets_FetchBound : (State.reset.setPc 0xFFE).pc.toNat ≤ 0xFFE ∧ 0xFFE < (State.reset.setPc 0xFFF).pc.toNat ∧
    (asked [.step 1, .step 2]).pending = .step 1 :: [.step 2] := by decide

theorem test_meets_RandByteOnlyForRnd : (∃ t, perform (.step 1) State.reset = .next t) ∧
    ∀ op x nn, State.reset.fetch = some op → decode op ≠ some (.rnd x nn) := by
  refine ⟨⟨_, rfl⟩, fun op x nn h => ?_⟩
  have e : State.reset.fetch = some 0 := by decide
  have hd : decode 0 = none := by decide
  rw [e] at h
  injection h with h
  rw [← h, hd]
  exact fun h => by cases h

theorem reset_meets_inv : State.reset.Inv :=
  ⟨rfl, by decide, by decide, by decide, fun a h => by simp at h⟩

theorem test_meets_StepKeepsInvariant : State.reset.Inv ∧ ∃ t, step State.reset = .next t := ⟨reset_meets_inv, ⟨_, rfl⟩⟩

theorem test_meets_CanonicalMemoryUnique : Memory.wf [(0x000, 1), (0xFFF, 1)] = true := by decide

theorem test_meets_ResetOperation : (asked [.reset]).pending = .reset :: [] := rfl

theorem test_meets_LoadWritesImage (rom : List Byte) : (asked [.load rom]).mem.wf = true ∧
    (asked [.load rom]).pending = .load rom :: [] ∧ (List.replicate 3584 (1 : Byte)).length ≤ 3584 ∧
    3584 < (List.replicate 3585 (1 : Byte)).length := by
  simp only [List.length_replicate]
  exact ⟨rfl, rfl, Nat.le_refl _, Nat.lt_succ_self _⟩

theorem test_meets_TickDecrementsTimers : (asked [.tick]).pending = .tick :: [] := rfl

theorem test_meets_SetKeyWritesOneKey : (asked [.setKey 15 true]).pending = .setKey 15 true :: [] ∧ (14 : Key) ≠ 15 := by decide

theorem test_meets_RetPopsReturnAddress : (State.reset.setStack [0x300]).stack = [] ++ [0x300] ∧ State.reset.stack = [] := by decide

theorem test_meets_CallPushesReturnAddress : (State.reset.setStack (List.replicate 15 0x202)).stack.length < 16 ∧
    (State.reset.setStack (List.replicate 16 0x202)).stack.length = 16 := by decide

theorem test_meets_SkipsOnByte : ((regs [(0, 5)]).reg 0).toNat = (5 : Byte).toNat ∧
    ((regs [(0, 5)]).reg 0).toNat ≠ (4 : Byte).toNat := by decide

theorem test_meets_SkipsOnRegisters : ((regs [(0, 5), (1, 5)]).reg 0).toNat = ((regs [(0, 5), (1, 5)]).reg 1).toNat ∧
    ((regs [(0, 5)]).reg 0).toNat ≠ ((regs [(0, 5)]).reg 1).toNat := by decide

theorem test_meets_SkipsOnKeys : KeyDown (keys [15]) 0xF ∧ ¬ KeyDown State.reset 0xF ∧ ¬ KeyDown State.reset 0x10 := by
  have up : ∀ k : Key, State.reset.keypad[k] = false := by decide
  refine ⟨⟨15, by decide, .inl rfl⟩, ?_, ?_⟩ <;> rintro ⟨k, hk, -⟩ <;> rw [up k] at hk <;> cases hk

theorem test_meets_CallsReturnInReverse : State.reset.stack.length + (List.replicate 16 (0x300 : Addr)).length ≤ 16 ∧
    16 ≤ (List.replicate 16 (0x300 : Addr)).length ∧ State.reset.stack = [] := by decide

/-- V-C23: CALL 0x300 fetched at 0x200 and CALL 0x400 at 0x300, then three RETs. -/
theorem test_meets_CallsReturnInReverse_vector :
    (∃ t, execAll [.call 0x300, .call 0x400] State.reset = .next t ∧ t.stack = [0x202, 0x302]) ∧
    (∃ t, execAll [.call 0x300, .call 0x400, .ret] State.reset = .next t ∧ t.pc = 0x302) ∧
    (∃ t, execAll [.call 0x300, .call 0x400, .ret, .ret] State.reset = .next t ∧ t.pc = 0x202) ∧
    ∃ t, execAll [.call 0x300, .call 0x400, .ret, .ret, .ret] State.reset = .next t ∧
      t.stepResult = .fault .stackUnderflow 0x202 0x00EE :=
  ⟨⟨_, rfl, by decide⟩, ⟨_, rfl, by decide⟩, ⟨_, rfl, by decide⟩, _, rfl, by decide⟩

/-- A destination that is not VF: the arithmetic statements (`AddWithCarry`, `SubtractWithoutBorrow`, `ShiftsByOne`). -/
theorem test_meets_destination : (14 : Reg) ≠ VF := by decide

theorem test_meets_FlagWriters : (∃ t, exec (.addReg 0 1) State.reset = .next t) ∧ Instr.writesFlag (.addReg 0 1) = true ∧
    Instr.writesFlag (.ldByte VF 7) = false ∧
    ∃ t, exec (.ldByte VF 7) State.reset = .next t ∧ t.reg VF ≠ State.reset.reg VF :=
  ⟨⟨_, rfl⟩, rfl, rfl, ⟨_, rfl, by decide⟩⟩

/-- Both sides of the bound of FX33, and of FX55 and FX65 with x = 0xF. -/
theorem test_meets_memory_transfers : State.reset.mem.wf = true ∧ (atI 0xFFD []).effAddr 2 ≤ 0xFFF ∧
    0xFFF < (atI 0xFFE []).effAddr 2 ∧ (atI 0xFFE []).effAddr 1 ≤ 0xFFF ∧ (atI 0xFF0 []).effAddr 15 ≤ 0xFFF ∧
    0xFFF < (atI 0xFF1 []).effAddr 15 ∧ (atI 0xFFF []).effAddr 0 ≤ 0xFFF := by decide

/-- `u` can be `t` itself, so its `I` and its bytes are those of `t`. -/
theorem test_meets_StoreThenLoadRestores : State.reset.mem.wf = true ∧
    (∃ t, exec (.stRegs 15) (atI 0xFF0 [(3, 7)]) = .next t ∧ t.stepResult = .ok) ∧
    ∃ t, exec (.ldB 15) (atI 0xFFD [(15, 157)]) = .next t ∧ t.stepResult = .ok :=
  ⟨rfl, ⟨_, rfl, rfl⟩, ⟨_, rfl, rfl⟩⟩

/-- The last word that fits under 0xFFF, stored by FX55 from V14 and V15 and by FX33 in its tens and ones, and the first one. -/
theorem test_meets_StoredCodeIsFetched : (14 + 1 ≤ (15 : Reg).val ∧ (atI 0xFF0 []).effAddr (14 + 1) ≤ 0xFFF ∧
      ∃ t, exec (.stRegs 15) (atI 0xFF0 []) = .next t) ∧
    ((atI 0xFFD []).effAddr (1 + 1) ≤ 0xFFF ∧ ∃ t, exec (.ldB 3) (atI 0xFFD [(3, 157)]) = .next t) ∧
    ((atI 0xFFE []).effAddr (0 + 1) ≤ 0xFFF ∧ ∃ t, exec (.ldB 3) (atI 0xFFE [(3, 157)]) = .next t) :=
  ⟨⟨by decide, by decide, _, rfl⟩, ⟨by decide, _, rfl⟩, ⟨by decide, _, rfl⟩⟩

/-- A sprite of one row with bit 7 set at 0xFFF, placed at (0, 0), over a pixel that is 1 and over a blank display. -/
def sprite (s : State) : State := withBytes [(0xFFF, 0x80)] (s.setI 0xFFF)

theorem sprite_bit (s : State) (hs : s = sprite State.reset ∨ s = sprite (lit 0 0)) (row : Fin 32) (col : Fin 64) :
    SpriteBit s 0 1 1 row col ↔ row = 0 ∧ col = 0 := by
  have key : ∀ b < 8, (0x80 : Byte).getLsbD (7 - b) = true ↔ b = 0 := by decide
  have hI : s.I.toNat = 0xFFF := by rcases hs with rfl | rfl <;> rfl
  have hb : s.byteAt 0xFFF = 0x80 := by rcases hs with rfl | rfl <;> rfl
  have h0 : (s.reg 0).toNat = 0 := by rcases hs with rfl | rfl <;> rfl
  have h1 : (s.reg 1).toNat = 0 := by rcases hs with rfl | rfl <;> rfl
  constructor
  · rintro ⟨r, hr, b, hlt, hbit, hrow, hcol⟩
    obtain rfl : r = 0 := by omega
    rw [hI, Nat.add_zero, hb, key b hlt] at hbit
    subst hbit
    rw [h1] at hrow
    rw [h0] at hcol
    exact ⟨Fin.ext hrow, Fin.ext hcol⟩
  · rintro ⟨rfl, rfl⟩
    refine ⟨0, by decide, 0, by decide, ?_, by rw [h1]; rfl, by rw [h0]; rfl⟩
    rw [hI, Nat.add_zero, hb]; decide

/-- Each clause of DrawSprite: the row count 0, both sides of the address bound, a pixel the sprite addresses and one it does
not, a collision and none. -/
theorem test_meets_DrawSprite : (0 : Fin 16).val = 0 ∧ (sprite State.reset).effAddr 1 ≤ 0x1000 ∧
    0x1000 < (sprite State.reset).effAddr 2 ∧ (2 : Fin 16).val ≠ 0 ∧
    SpriteBit (sprite State.reset) 0 1 1 0 0 ∧ ¬ SpriteBit (sprite State.reset) 0 1 1 31 63 ∧
    (∃ row col, SpriteBit (sprite (lit 0 0)) 0 1 1 row col ∧ pixel (sprite (lit 0 0)).fb row col = true) ∧
    ¬ ∃ row col, SpriteBit (sprite State.reset) 0 1 1 row col ∧ pixel (sprite State.reset).fb row col = true := by
  refine ⟨rfl, by decide, by decide, by decide, ?_, ?_, ⟨0, 0, ?_, by decide⟩, ?_⟩
  · exact (sprite_bit _ (.inl rfl) ..).mpr ⟨rfl, rfl⟩
  · intro h
    exact absurd ((sprite_bit _ (.inl rfl) ..).mp h).1 (by decide)
  · exact (sprite_bit _ (.inr rfl) ..).mpr ⟨rfl, rfl⟩
  · rintro ⟨row, col, h, hp⟩
    obtain ⟨rfl, rfl⟩ := (sprite_bit _ (.inl rfl) ..).mp h
    revert hp; decide

/-- The two draws, with a pixel of the sprite 0 before the first one, and with none. -/
theorem test_meets_DrawTwiceRestores : (∃ t, exec (.drw 0 1 1) (sprite State.reset) = .next t ∧ t.stepResult = .ok ∧
      t.I = (sprite State.reset).I ∧ t.reg 0 = (sprite State.reset).reg 0 ∧ t.reg 1 = (sprite State.reset).reg 1 ∧
      t.byteAt 0xFFF = (sprite State.reset).byteAt 0xFFF) ∧
    (∃ row col, SpriteBit (sprite State.reset) 0 1 1 row col ∧ pixel (sprite State.reset).fb row col = false) ∧
    ¬ ∃ row col, SpriteBit (sprite (lit 0 0)) 0 1 1 row col ∧ pixel (sprite (lit 0 0)).fb row col = false := by
  refine ⟨⟨_, rfl, rfl, rfl, rfl, rfl, rfl⟩, ⟨0, 0, (sprite_bit _ (.inl rfl) ..).mpr ⟨rfl, rfl⟩, by decide⟩, ?_⟩
  rintro ⟨row, col, h, hp⟩
  obtain ⟨rfl, rfl⟩ := (sprite_bit _ (.inr rfl) ..).mp h
  revert hp; decide

/-- The premises of R193 (a), from a state whose sprite pixel is 1 before the first draw. -/
theorem test_meets_SecondDrawAlwaysCollides : (sprite (lit 0 0)).byteAt ((sprite (lit 0 0)).I.toNat + 0) ≠ 0 ∧
    ∃ t w, exec (.drw 0 1 1) (sprite (lit 0 0)) = .next t ∧ t.stepResult = .ok ∧
      exec (.drw 0 1 1) (t.setReg VF 0) = .next w ∧ w.stepResult = .ok :=
  ⟨by decide, ⟨_, _, rfl, rfl, rfl, rfl⟩⟩

theorem test_meets_KeyWait : (keys [15]).keypad[(15 : Key)] = true ∧ (∀ j : Key, j < 15 → (keys [15]).keypad[j] = false) ∧
    ∀ k : Key, State.reset.keypad[k] = false := by decide

theorem test_meets_WaitingStepsChangeNothing : (atTop 0xF20A).pc.toNat ≤ 0xFFE ∧ (atTop 0xF20A).fetch = some 0xF20A ∧
    decode 0xF20A = some (.ldVxK 2) ∧ (atTop 0xF20A).pending = .step 0x5A :: [] ∧
    (∀ k : Key, (atTop 0xF20A).keypad[k] = false) ∧ (atTop 0x1FFE).fetch = some 0x1FFE ∧
    decode 0x1FFE = some (.jp 0xFFE) ∧ (0xFFE : Addr).toNat = (atTop 0x1FFE).pc.toNat := by decide

theorem test_meets_InstructionWrites : ∃ t, exec (.ldRegs 15) (atI 0xFF8 []) = .next t := ⟨_, rfl⟩

theorem test_meets_FaultKindsByInstruction : ∃ t, exec .ret State.reset = .next t ∧ t.stepResult ≠ .ok := ⟨_, rfl, by decide⟩

theorem test_meets_ResultsAreNotRead : (∃ t, perform (.step 1) State.reset = .next t) ∧
    (∃ t, perform (.load [0x12]) State.reset = .next t) ∧ (∃ t, perform .tick State.reset = .next t) ∧
    (∃ t, perform (.setKey 15 true) State.reset = .next t) ∧ ∃ t, perform .reset State.reset = .next t :=
  ⟨⟨_, rfl⟩, ⟨_, rfl⟩, ⟨_, rfl⟩, ⟨_, rfl⟩, ⟨_, rfl⟩⟩

theorem test_meets_SoundTimerIsNotRead : (∃ t, exec (.ldStVx 3) (regs [(3, 9)]) = .next t) ∧
    (∃ t, exec (.ldDtVx 3) (regs [(3, 9)]) = .next t) ∧ ∀ x, Instr.ldDtVx 3 ≠ .ldStVx x :=
  ⟨⟨_, rfl⟩, ⟨_, rfl⟩, fun _ h => by cases h⟩

/-- Each premise of ParametersGovern, at the bounds of another configuration. -/
theorem test_meets_ParametersGovern :
    ((State.resetOf otherParams).setStack (List.replicate 11 0x202)).stack.length < otherParams.stackDepth ∧
    otherParams.stackDepth ≤ ((State.resetOf otherParams).setStack (List.replicate 12 0x202)).stack.length ∧
    (79 < otherParams.font.length) ∧ otherParams.shiftSource = .vx ∧ Config.hw.shiftSource = .vy ∧
    otherParams.numKeys ≤ (((State.resetOf otherParams).setReg 3 0x20).reg 3).toNat ∧
    otherParams.keyIndexPolicy = .maskLowNibble ∧
    ({ keyIndexPolicy := .notPressed } : Config.Params).keyIndexPolicy = .notPressed ∧ (otherLoaded 1 2).pending = .load [1, 2] :: [.step 0] ∧
    (State.resetOf otherParams).pending = [] := by decide

/-- The premises of ParametersGovernAccesses: both sides of another configuration's bound, for the three accesses of FX33 and of
x = 2, and a sprite of two rows with one 1 bit, in its second row. -/
theorem test_meets_ParametersGovernAccesses :
    (∃ s : State otherParams, s = (State.resetOf otherParams).setI 0x1FFD ∧ s.effAddr 3 ≤ otherParams.memSize ∧
      otherParams.memSize < (s.setI 0x1FFE).effAddr 3) ∧
    (2 : Fin 16).val ≠ 0 ∧ 1 < (2 : Fin 16).val ∧
    ∃ s : State otherParams, s = (State.resetOf otherParams).setMem [(0x1FFF, 0x01)] ∧
      (s.setI 0x1FFE).effAddr 2 ≤ otherParams.memSize ∧
      ∀ k, k < 2 → (s.setI 0x1FFE).byteAt ((s.setI 0x1FFE).effAddr k) = if k = 1 then (0x80 : Byte) >>> 7 else 0 :=
  ⟨⟨_, rfl, by decide⟩, by decide, by decide, ⟨_, rfl, by decide, by decide⟩⟩

end Sys2Proof.Tests
end

/-! Proofs: what every operation does (it answers a next state and leaves the queue to come alone), the order of pending
operations, and the parameters of a configuration. -/

namespace Sys2Proof.Machine

/-! ### Every instruction and every operation answers a next state -/

section
variable {p : Config.Params}

theorem finish_answers (i : Instr) (q : State p × Option Nat) : ∃ t, finish i q = .next t := by
  obtain ⟨s, _ | a⟩ := q
  · exact ⟨_, rfl⟩
  · exact ⟨_, rfl⟩

/-- No instruction stops or is refused: it completes or raises (60_exceptions.md R234). -/
theorem execUnder_answers (i : Instr) (s : State p) : ∃ t, execUnder i s = .next t := by
  cases i
  case ret | call | ldVxK | drw =>
    simp only [execUnder, execRet, execCall, execLdVxK, execDrw]
    split <;> exact ⟨_, rfl⟩
  case ldB | stRegs | ldRegs => exact finish_answers ..
  all_goals exact ⟨_, rfl⟩

theorem opStep_answers (b : Byte) (s : State p) : ∃ t, opStep b s = .next t := by
  rw [opStep]
  split
  · exact ⟨_, rfl⟩
  · split
    · exact ⟨_, rfl⟩
    · exact execUnder_answers ..

theorem perform_answers (op : Operation p) (s : State p) : ∃ t, perform op s = .next t := by
  cases op with
  | step b => exact opStep_answers b s
  | reset | load _ | tick | setKey _ _ => exact ⟨_, rfl⟩

end

/-! ### The queue of pending operations (00_scope.md R11; log 1) -/

theorem opLoad_setPending (rom : List Byte) (s : State) (l : List Operation) :
    opLoad rom (s.setPending l) = (opLoad rom s).setPending l := by
  unfold opLoad
  split
  · rfl
  · rfl

theorem opStep_setPending {b : Byte} {s t : State} (h : opStep b s = .next t) (l : List Operation) :
    opStep b (s.setPending l) = .next (t.setPending l) := by
  have hf : (s.setPending l).fetch = s.fetch := State.fetch_congr rfl rfl
  rw [opStep] at h ⊢
  rw [hf]
  cases hop : s.fetch with
  | none =>
    simp only [hop, raiseAt_next] at h ⊢
    subst h; rfl
  | some op =>
    cases hi : decode op with
    | none =>
      simp only [hop, hi, raiseAt_next] at h ⊢
      subst h; rfl
    | some i =>
      simp only [hop, hi, execUnder_eq_exec] at h ⊢
      exact exec_blind (blind_setPending l) i (fun _ _ _ _ => rfl) (fun _ _ _ => rfl) h

/-- An operation neither reads nor writes the operations that are still to come. -/
theorem perform_setPending {op : Operation} {s t : State} (h : perform op s = .next t) (l : List Operation) :
    perform op (s.setPending l) = .next (t.setPending l) := by
  cases op with
  | step b => exact opStep_setPending h l
  | load rom =>
    cases h
    exact congrArg _ (opLoad_setPending rom s l)
  | reset | tick | setKey _ _ =>
    cases h
    rfl

/-- With `op` the oldest pending operation a step is `op`, and leaves the rest pending. -/
theorem step_pending_cons {op : Operation} {s t : State} (h : perform op s = .next t) (l : List Operation) :
    step (s.setPending (op :: l)) = .next (t.setPending l) :=
  perform_setPending h l

theorem performAll_cons {op : Operation} {s t : State} (h : perform op s = .next t) (ops : List Operation) :
    performAll (op :: ops) s = performAll ops t := by
  rw [performAll, h]

theorem core_run_succ {s t : State} (h : step s = .next t) (k : Nat) :
    Host.Core.run core (k + 1) s = Host.Core.run core k t := by
  have hc : core.step s = .next t := h
  simp only [Host.Core.run, hc]

/-- Settles O11, by induction on the pending operations: one step of the run is the oldest of them, which does not depend on
those after it. -/
theorem pendingOperationsInOrder : Obligations.PendingOperationsInOrder := by
  unfold Obligations.PendingOperationsInOrder
  intro ops rest s
  induction ops generalizing s with
  | nil => exact ⟨_, rfl, rfl, rfl⟩
  | cons op ops ih =>
    obtain ⟨u, hu⟩ := perform_answers op s
    obtain ⟨t, hall, hrest, hrun⟩ := ih u
    refine ⟨t, ?_, hrest, ?_⟩
    · rw [performAll_cons (perform_setPending hu rest), hall]
    · rw [List.length_cons, List.cons_append, core_run_succ (step_pending_cons hu (ops ++ rest)), hrun]

/-! ### This hardware's configuration (00_scope.md R7) -/

/-- Settles O54: the values are the defaults of `Config.Params`, and `exec` is `execUnder` there. -/
theorem hardwareConfiguration : Obligations.HardwareConfiguration := by
  unfold Obligations.HardwareConfiguration
  refine ⟨rfl, rfl, rfl, rfl, rfl, rfl, rfl, rfl, rfl, rfl, Memory.font_length, rfl, rfl, ?_, fun _ => rfl⟩
  exact fun i s => (execUnder_eq_exec i s).symm

end Sys2Proof.Machine

/-! ### What a parameter fixes in each shared operation, under any configuration (00_scope.md R7, log 16) -/

namespace Sys2Proof.Machine

section
variable {p : Config.Params}

theorem State.memRead_none_iff (s : State p) (a : Nat) : s.memRead a = none ↔ p.memSize ≤ a := by
  simp [State.memRead]

/-- The reset pc is not cut to the width of pc. -/
theorem toNat_resetOf_pc : (State.resetOf p).pc.toNat = p.programBase := by
  have hbase := p.regions_fit.2.1
  have hfit := p.pc_fits.2
  exact (BitVec.toNat_ofNat ..).trans (Nat.mod_eq_of_lt (by omega))

theorem byteAt_resetOf_font (k : Nat) : (State.resetOf p).byteAt (p.fontBase + k) = p.font.getD k 0 := by
  change Memory.unlisted (p.fontBase + k) p = _
  rw [Memory.unlisted, if_pos (Nat.le_add_right _ _), Nat.add_sub_cancel_left]

/-- `pc` holds every `nnn` (10_state.md R26). -/
theorem toNat_zextAddr_pc (nnn : Addr) : (zextAddr nnn p.pcWidth).toNat = nnn.toNat := by
  have hnnn := nnn.isLt
  have hfit := p.pc_fits.1
  exact (BitVec.toNat_setWidth ..).trans (Nat.mod_eq_of_lt (by omega))

theorem execUnder_call_room {s : State p} (h : s.stack.length < p.stackDepth) (nnn : Addr) :
    execUnder (.call nnn) s = done ((s.setStack (s.stack ++ [s.pc.setWidth p.stackEntryWidth])).setPc
      (zextAddr nnn p.pcWidth)) := by
  rw [execUnder, execCall, State.push_some h]

theorem execUnder_call_full {s : State p} (h : p.stackDepth ≤ s.stack.length) (nnn : Addr) :
    execUnder (.call nnn) s = raise .stackOverflow (.call nnn) s := by
  rw [execUnder, execCall, State.push_none h]

/-- `I` holds every font address (43_display.md R194). -/
theorem toNat_fontAddr_under (v : Byte) : (fontAddr v p).toNat = p.fontBase + 5 * v.toNat := by
  have hv := v.isLt
  have hfit := p.I_fits.2.2
  exact (BitVec.toNat_ofNat ..).trans (Nat.mod_eq_of_lt (by omega))

/-- `I` holds every value below `MEM_SIZE` (42_index_memory.md R172). -/
theorem toNat_wrapped_I (k : Nat) : (BitVec.ofNat p.iWidth (k % p.memSize)).toNat = k % p.memSize := by
  have hlt := Nat.mod_lt k p.regions_fit.1
  have hfit := p.I_fits.2.1
  exact (BitVec.toNat_ofNat ..).trans (Nat.mod_eq_of_lt (by omega))

theorem toNat_flagByte (b : Bool) : (flagByte b).toNat = if b = true then 1 else 0 := by
  cases b <;> rfl

/-- The bit a right shift shifts out is the parity of what is shifted. -/
theorem toNat_flagByte_shiftOutRight (v : Byte) : (flagByte (shiftOutRight v)).toNat = v.toNat % 2 := by
  have hbit : shiftOutRight v = decide (v.toNat % 2 = 1) := by simp [shiftOutRight, BitVec.getLsbD]
  rw [toNat_flagByte, hbit]
  simp only [decide_eq_true_iff]
  split <;> omega

theorem reg_VF_shiftRight (src : Config.ShiftSource) (x y : Reg) (s : State p) :
    ((shiftRight src x y s).reg VF).toNat = (shiftOperand src x y s).toNat % 2 := by
  rw [shiftRight, State.reg_setRegFlag, if_pos rfl, toNat_flagByte_shiftOutRight]

/-- LOAD accepts exactly the images that fit between `PROGRAM_BASE` and `MEM_SIZE` (70_reset_and_hazards.md R265). -/
theorem opLoad_ok_iff (rom : List Byte) (s : State p) :
    (opLoad rom s).loadResult = .ok ↔ p.programBase + rom.length ≤ p.memSize := by
  have hbase := p.regions_fit.2.1
  unfold opLoad
  split
  case isTrue h => exact iff_of_false LoadResult.noConfusion (by omega)
  case isFalse h => exact iff_of_true rfl (by omega)

theorem performNext_cons {s : State p} {op : Operation p} {rest : List (Operation p)} (h : s.pending = op :: rest) :
    performNext s = perform op (s.setPending rest) := by
  rw [performNext, h]

theorem performNext_nil {s : State p} (h : s.pending = []) :
    performNext s = opStep (p.rand s.draws) (s.setDraws (s.draws + 1)) := by
  rw [performNext, h, State.nextRandByte]

end

/-- Settles O55, clause by clause from what each parameter fixes; the range fields of `Config.Params` are what keeps each value
from being cut to its register. -/
theorem parametersGovern : Obligations.ParametersGovern := by
  unfold Obligations.ParametersGovern
  intro p s x y nnn rom rest
  refine ⟨s.memRead_none_iff, toNat_resetOf_pc, fun k _ => byteAt_resetOf_font k, fun h => ?call_room, fun h => ?call_full,
    ⟨_, rfl, rfl, toNat_fontAddr_under _⟩, ⟨_, rfl, rfl, toNat_wrapped_I _⟩, ⟨_, rfl, rfl, ?shift_vx, ?shift_vy⟩,
    fun h => ⟨_, rfl, rfl, ?not_pressed, ?masked⟩, fun _ => ⟨rfl, rfl⟩, fun h => ?load, performNext_nil⟩
  case call_room => exact ⟨_, execUnder_call_room h nnn, rfl, toNat_zextAddr_pc nnn, rfl⟩
  case call_full => exact ⟨_, execUnder_call_full h nnn, rfl, rfl, rfl⟩
  case shift_vx | shift_vy =>
    intro hsrc
    rw [State.reg_setStepResult, reg_VF_shiftRight, hsrc, shiftOperand]
  case not_pressed | masked =>
    intro hpol
    simp [State.skipIf_eq, keyPressed_above _ _ h, hpol]
  case load =>
    rw [performNext_cons h]
    exact ⟨_, rfl, opLoad_ok_iff rom _⟩

/-! ### The transfers and the draw under any configuration -/

section
variable {p : Config.Params}

/-- Instruction `i` accesses memory at `I`, `I + 1`, ..., `I + k - 1` and ends as `MEM_SIZE` allows: it completes when the last
is below `MEM_SIZE`, else it faults at the first address that is not (20_memory.md R52, R53; 60_exceptions.md R232). -/
def EndsAtMemSize (i : Instr) (k : Nat) (s : State p) : Prop :=
  (s.effAddr k ≤ p.memSize → ∃ t, execUnder i s = .next t ∧ t.stepResult = .ok) ∧
  (p.memSize < s.effAddr k → ∃ t, execUnder i s = .next t ∧
    t.stepResult = .fault (.memoryBoundsError (max s.I.toNat p.memSize)) (s.pc - 2) (encode i))

/-- Where a run of `k` accesses at consecutive addresses from `I` fails. -/
def failingAddr (k : Nat) (s : State p) : Option Nat :=
  if s.effAddr k ≤ p.memSize then none else some (max s.I.toNat p.memSize)

theorem find_failingAddr {α : Type} (f : α → Nat) (l : List α) (s : State p) (hl : l ≠ [])
    (h : l.map f = List.range' s.I.toNat l.length) :
    (l.find? fun q => decide (p.memSize ≤ f q)).map f = failingAddr l.length s := by
  simp only [find_from p.memSize f l s.I.toNat h, hl, false_or]
  rfl

/-- An instruction that ends as its run of accesses does, pc unchanged. -/
theorem endsAtMemSize_of_finish {i : Instr} {k : Nat} {s : State p} {q : State p × Option Nat}
    (hexec : execUnder i s = finish i q) (hend : q.2 = failingAddr k s) (hpc : q.1.pc = s.pc) : EndsAtMemSize i k s := by
  obtain ⟨hok, hfault⟩ := finish_under i q
  constructor
  · intro h
    exact ⟨_, hexec.trans (hok (hend.trans (if_pos h))), rfl⟩
  · intro h
    refine ⟨_, hexec.trans (hfault _ (hend.trans (if_neg (Nat.not_le.mpr h)))), ?_⟩
    rw [State.setStepResult_stepResult, hpc]

theorem storeAll_failingAddr (l : List (Nat × Byte)) (s : State p) (hl : l ≠ [])
    (h : l.map (·.1) = List.range' s.I.toNat l.length) : (storeAll l s).2 = failingAddr l.length s :=
  (storeAll_under l s).1.trans (find_failingAddr _ l s hl h)

theorem loadAll_failingAddr (l : List (Nat × Reg)) (s : State p) (hl : l ≠ [])
    (h : l.map (·.1) = List.range' s.I.toNat l.length) : (loadAll l s).2 = failingAddr l.length s :=
  (loadAll_under l s).1.trans (find_failingAddr _ l s hl h)

theorem drawSprite_failingAddr (x y : Reg) {n : Fin 16} (hn : n.val ≠ 0) (s : State p) :
    (drawSprite x y n s).2 = failingAddr n.val s := by
  have haddrs : (List.range n.val).map (s.effAddr 0 + ·) = List.range' s.I.toNat (List.range n.val).length := by
    rw [List.range_eq_range', List.map_add_range', List.length_range', State.effAddr]
    rfl
  have hfind := find_failingAddr _ (List.range n.val) s (by simpa using hn) haddrs
  rw [List.length_range] at hfind
  exact (drawRows_under ..).trans hfind

/-- DXYN ends as a run of its row reads does, from the framebuffer and the flag it has written by then. -/
theorem execUnder_drw_eq_finish (x y : Reg) (n : Fin 16) (s : State p) :
    ∃ u : State p, u.pc = s.pc ∧ execUnder (.drw x y n) s = finish (.drw x y n) (u, (drawSprite x y n s).2) := by
  rw [execUnder, execDrw]
  generalize drawSprite x y n s = q
  obtain ⟨d, _ | a⟩ := q
  · exact ⟨((s.setFlag false).setFb d.1).setFlag d.2, rfl, rfl⟩
  · exact ⟨(s.setFlag false).setFb d.1, rfl, rfl⟩

theorem ldB_endsAtMemSize (x : Reg) (s : State p) : EndsAtMemSize (.ldB x) 3 s :=
  endsAtMemSize_of_finish rfl (storeAll_failingAddr (bcdStores x s) s (List.cons_ne_nil _ _) (bcdStores_addrs x s))
    (storeAll_under ..).2

theorem stRegs_endsAtMemSize (x : Reg) (s : State p) : EndsAtMemSize (.stRegs x) (x.val + 1) s := by
  have hlen := regStores_length x s
  have hend := storeAll_failingAddr (regStores x s) s (List.ne_nil_of_length_pos (by omega)) (regStores_addrs x s)
  rw [hlen] at hend
  exact endsAtMemSize_of_finish rfl hend (storeAll_under ..).2

theorem ldRegs_endsAtMemSize (x : Reg) (s : State p) : EndsAtMemSize (.ldRegs x) (x.val + 1) s := by
  have hlen := regLoads_length x s
  have hend := loadAll_failingAddr (regLoads x s) s (List.ne_nil_of_length_pos (by omega)) (regLoads_addrs x s)
  rw [hlen] at hend
  exact endsAtMemSize_of_finish rfl hend (loadAll_under ..).2

theorem drw_endsAtMemSize (x y : Reg) {n : Fin 16} (hn : n.val ≠ 0) (s : State p) :
    EndsAtMemSize (.drw x y n) n.val s := by
  obtain ⟨u, hpc, hexec⟩ := execUnder_drw_eq_finish x y n s
  exact endsAtMemSize_of_finish hexec (drawSprite_failingAddr x y hn s) hpc

/-- A sprite in bounds with one 1 bit, bit `7 - b` of row `r`, plots one pixel (43_display.md R192). -/
theorem drawSprite_single (x y : Reg) {n : Fin 16} {r b : Nat} {s : State p} (hr : r < n.val) (hb : b < 8)
    (hfits : s.effAddr n.val ≤ p.memSize)
    (hbits : ∀ k, k < n.val → s.byteAt (s.effAddr k) = if k = r then (0x80 : Byte) >>> b else 0) :
    drawSprite x y n s =
      (plot (spriteRow (s.reg y).toNat r p) (spriteCol (s.reg x).toNat b p) (s.fb, false), none) := by
  have hrows := drawRows_single (s := s) (base := s.effAddr 0) (r := r) hb (s.reg x).toNat (s.reg y).toNat
    (List.nodup_range (n := n.val))
    (by
      intro k hk
      rw [List.mem_range] at hk
      simp only [State.effAddr] at hfits ⊢
      omega)
    (fun k hk => hbits k (List.mem_range.mp hk)) (s.fb, false)
  rwa [if_pos (List.mem_range.mpr hr)] at hrows

theorem execUnder_drw_of_plot {x y : Reg} {n : Fin 16} {s : State p} {row : Fin p.fbH} {col : Fin p.fbW}
    (h : drawSprite x y n s = (plot row col (s.fb, false), none)) :
    ∃ t, execUnder (.drw x y n) s = .next t ∧ t.stepResult = .ok ∧
      t.fb = setPixel s.fb row col (!pixel s.fb row col) ∧ t.reg VF = flagByte (pixel s.fb row col) := by
  rw [execUnder, execDrw, h]
  refine ⟨_, rfl, rfl, rfl, ?_⟩
  simp [State.reg_setFlag, plot]

theorem drw_single_pixel (x y : Reg) {n : Fin 16} {r b : Nat} {s : State p} (hr : r < n.val) (hb : b < 8)
    (hfits : s.effAddr n.val ≤ p.memSize)
    (hbits : ∀ k, k < n.val → s.byteAt (s.effAddr k) = if k = r then (0x80 : Byte) >>> b else 0) :
    ∃ t, execUnder (.drw x y n) s = .next t ∧ t.stepResult = .ok ∧ ∀ row col,
      (row = spriteRow (s.reg y).toNat r p ∧ col = spriteCol (s.reg x).toNat b p →
        pixel t.fb row col = !pixel s.fb row col ∧ (t.reg VF).toNat = if pixel s.fb row col = true then 1 else 0) ∧
      (¬ (row = spriteRow (s.reg y).toNat r p ∧ col = spriteCol (s.reg x).toNat b p) →
        pixel t.fb row col = pixel s.fb row col) := by
  obtain ⟨t, hexec, hok, hfb, hflag⟩ := execUnder_drw_of_plot (drawSprite_single x y hr hb hfits hbits)
  refine ⟨t, hexec, hok, fun row col => ⟨?_, fun hne => ?_⟩⟩
  · rintro ⟨rfl, rfl⟩
    rw [hfb, pixel_setPixel_under, if_pos ⟨rfl, rfl⟩, hflag]
    exact ⟨rfl, toNat_flagByte _⟩
  · rw [hfb, pixel_setPixel_under, if_neg hne]

end

/-- Settles O56: the three transfers and the draw are runs of accesses at consecutive addresses from `I`, and a sprite of one
1 bit is one `plot`. -/
theorem parametersGovernAccesses : Obligations.ParametersGovernAccesses := by
  unfold Obligations.ParametersGovernAccesses
  intro p s x y n
  refine ⟨?_, ?_⟩
  · rintro i k (⟨rfl, rfl⟩ | ⟨rfl, rfl⟩ | ⟨rfl, rfl⟩ | ⟨rfl, rfl, hn⟩)
    · exact ldB_endsAtMemSize x s
    · exact stRegs_endsAtMemSize x s
    · exact ldRegs_endsAtMemSize x s
    · exact drw_endsAtMemSize x y hn s
  · intro r b hr hb hfits hbits
    simpa only [Fin.ext_iff, spriteRow, spriteCol] using drw_single_pixel x y hr hb hfits hbits

end Sys2Proof.Machine

/-! Proofs: what an instruction writes and leaves alone (10_state.md R38), the flag writers, the invariant every step keeps, and
what no operation reads. -/

namespace Sys2Proof.Machine

/-! ### How an instruction ends -/

/-- The result is a next state: one that meets `P`, with `step_result` written into it (30_encoding.md R84, 60_exceptions.md
R233). -/
def EndsIn (P : State → Prop) (r : Result) : Prop := ∃ u e, r = .next (u.setStepResult e) ∧ P u

section
variable {P : State → Prop}

theorem EndsIn.done {u : State} (h : P u) : EndsIn P (done u) := ⟨u, _, rfl, h⟩

theorem EndsIn.raiseAt {u : State} (h : P u) (k : FaultKind) (a : Word) (op : Word) : EndsIn P (raiseAt k a op u) :=
  ⟨u, _, rfl, h⟩

theorem EndsIn.raise {u : State} (h : P u) (k : FaultKind) (i : Instr) : EndsIn P (raise k i u) := ⟨u, _, rfl, h⟩

theorem EndsIn.finish {q : State × Option Nat} (h : P q.1) (i : Instr) : EndsIn P (finish i q) := by
  obtain ⟨u, _ | a⟩ := q
  · exact .done h
  · exact .raise h ..

/-- What survives the write of `step_result` holds of the state the result is. -/
theorem EndsIn.of_next {r : Result} (h : EndsIn P r) {t : State} (hr : r = .next t)
    (hP : ∀ u e, P u → P (u.setStepResult e)) : P t := by
  obtain ⟨u, e, rfl, hu⟩ := h
  cases hr
  exact hP u e hu

/-- How 00EE ends, by the stack (40_control.md R101). -/
theorem execRet_endsIn {s : State} (hempty : P s)
    (hpop : ∀ l a, s.stack = l ++ [a] → P ((s.setStack l).setPc a)) : EndsIn P (execRet s) := by
  rcases List.eq_nil_or_concat s.stack with h | ⟨l, a, h⟩
  · exact ⟨_, _, execRet_nil h, hempty⟩
  · rw [List.concat_eq_append] at h
    exact ⟨_, _, execRet_concat h, hpop l a h⟩

/-- How 2NNN ends, by the depth of the stack (R103). -/
theorem execCall_endsIn {s : State} {nnn : Addr} (hfull : P s)
    (hpush : s.stack.length < 16 → P ((s.setStack (s.stack ++ [s.pc])).setPc (zextAddr nnn))) :
    EndsIn P (execCall nnn s) := by
  rcases Nat.lt_or_ge s.stack.length 16 with h | h
  · exact ⟨_, _, execCall_fits h nnn, hpush h⟩
  · exact ⟨_, _, execCall_full h nnn, hfull⟩

/-- How FX0A ends, by whether a key is pressed (44_timer_key.md R215). -/
theorem execLdVxK_endsIn {s : State} {x : Reg} (hretry : P (s.setPc (s.pc - 2))) (hkey : ∀ b, P (s.setReg x b)) :
    EndsIn P (execLdVxK x s) := by
  rw [execLdVxK]
  split
  · exact .done hretry
  · exact .done (hkey _)

/-- Of two flags written one after the other VF keeps the last (10_state.md R23). -/
theorem setFlag_setFlag (s : State) (b c : Bool) : (s.setFlag b).setFlag c = s.setFlag c := by
  simp only [State.setFlag, State.setReg, State.setV, Vector.set_set]

/-- How DXYN ends: with rows drawn and VF a flag, the last write to it (43_display.md R192). -/
theorem execDrw_endsIn {s : State} {x y : Reg} {n : Fin 16} (h : ∀ f c, P ((s.setFb f).setFlag c)) :
    EndsIn P (execDrw x y n s) := by
  rw [execDrw]
  generalize drawSprite x y n s = q
  obtain ⟨d, _ | a⟩ := q
  · have hflag : ((s.setFlag false).setFb d.1).setFlag d.2 = (s.setFb d.1).setFlag d.2 :=
      setFlag_setFlag (s.setFb d.1) false d.2
    exact .done (hflag ▸ h d.1 d.2)
  · exact .raise (h d.1 false) ..

end

/-! ### The access summary (10_state.md R38) -/

/-- A frame, part by part. -/
theorem sameExcept_iff {c : List Part} {s t : State} : SameExcept c s t ↔
    (.mem ∉ c → ∀ a, t.byteAt a = s.byteAt a) ∧ (.pc ∉ c → t.pc = s.pc) ∧ (.I ∉ c → t.I = s.I) ∧
    (.v ∉ c → ∀ r, t.reg r = s.reg r) ∧ (.stack ∉ c → t.stack = s.stack) ∧ (.dt ∉ c → t.dt = s.dt) ∧
    (.st ∉ c → t.st = s.st) ∧ (.fb ∉ c → t.fb = s.fb) ∧ (.keypad ∉ c → t.keypad = s.keypad) ∧
    (.stepResult ∉ c → t.stepResult = s.stepResult) ∧ (.loadResult ∉ c → t.loadResult = s.loadResult) ∧
    (.randByte ∉ c → t.randByte = s.randByte) ∧ (.draws ∉ c → t.draws = s.draws) ∧
    (.pending ∉ c → t.pending = s.pending) := by
  constructor
  · exact fun h => ⟨h .mem, h .pc, h .I, h .v, h .stack, h .dt, h .st, h .fb, h .keypad, h .stepResult, h .loadResult,
      h .randByte, h .draws, h .pending⟩
  · rintro ⟨_, _, _, _, _, _, _, _, _, _, _, _, _, _⟩ q
    cases q <;> assumption

theorem SameExcept.setStepResult {c : List Part} {s t : State} (h : SameExcept (.stepResult :: c) s t) (e : StepResult) :
    SameExcept (.stepResult :: c) s (t.setStepResult e) := by
  rw [sameExcept_iff] at h ⊢
  simpa using h

/-- Every instruction writes only the parts its row names. -/
theorem exec_writes (i : Instr) (s : State) : EndsIn (SameExcept (.stepResult :: i.writes) s) (exec i s) := by
  have hunchanged : SameExcept (.stepResult :: i.writes) s s := by simp [sameExcept_iff]
  cases i
  case ret => exact execRet_endsIn hunchanged fun _ _ _ => by simp [sameExcept_iff, Instr.writes]
  case call => exact execCall_endsIn hunchanged fun _ => by simp [sameExcept_iff, Instr.writes]
  case ldVxK =>
    refine execLdVxK_endsIn ?retry fun b => ?key
    all_goals simp [sameExcept_iff, Instr.writes]
  case drw => exact execDrw_endsIn fun _ _ => by simp [sameExcept_iff, Instr.writes]
  case ldB | stRegs =>
    refine .finish ?_ _
    rw [storeAll_fields]
    simp [sameExcept_iff, Instr.writes]
  case ldRegs =>
    refine .finish ?_ _
    rw [loadAll_fields]
    simp [sameExcept_iff, Instr.writes]
  all_goals
    refine .done ?_
    simp [sameExcept_iff, Instr.writes, State.skipIf_eq, shiftRight, shiftLeft]

/-- A block load writes V0..Vx at most. -/
theorem regsSameExcept_regLoads (x : Reg) (s : State) :
    RegsSameExcept (· ≤ x) s (loadAll (regLoads x s) s).1 := by
  intro r hr
  refine loadAll_other fun hm => hr ?_
  have hmem : r ∈ (regLoads x s).map (·.2) := ((List.takeWhile_sublist _).map _).subset hm
  rwa [regLoads_regs, mem_regsUpTo] at hmem

theorem regsSameExcept_setReg (s : State) (x : Reg) (b : Byte) : RegsSameExcept (· = x) s (s.setReg x b) :=
  fun _ hr => s.reg_setReg_other hr b

theorem regsSameExcept_setRegFlag (s : State) (x : Reg) (b : Byte) (c : Bool) :
    RegsSameExcept (fun r => r = x ∨ r = VF) s (s.setRegFlag x b c) := by
  intro r hr
  rw [not_or] at hr
  rw [State.reg_setRegFlag, if_neg hr.2, if_neg hr.1]

/-- Every instruction writes only the registers its row names. -/
theorem exec_writesReg (i : Instr) (s : State) : EndsIn (RegsSameExcept i.writesReg s) (exec i s) := by
  cases i
  case ldByte | addByte | ldReg | orReg | andReg | xorReg | rnd | ldVxDt => exact .done (regsSameExcept_setReg _ _ _)
  case addReg | subReg | shrReg | subnReg | shlReg => exact .done (regsSameExcept_setRegFlag _ _ _ _)
  case addI => exact .done (regsSameExcept_setReg _ _ _)
  case drw => exact execDrw_endsIn fun _ _ => regsSameExcept_setReg _ _ _
  case ldVxK => exact execLdVxK_endsIn (fun _ _ => rfl) fun _ => regsSameExcept_setReg _ _ _
  case ldRegs => exact .finish (regsSameExcept_regLoads _ _) _
  case ret => exact execRet_endsIn (fun _ _ => rfl) fun _ _ _ _ _ => rfl
  case call => exact execCall_endsIn (fun _ _ => rfl) fun _ _ _ => rfl
  case ldB | stRegs =>
    refine .finish ?_ _
    rw [storeAll_fields]
    exact fun _ _ => rfl
  case seByte | sneByte | seReg | sneReg | skp | sknp =>
    refine .done ?_
    rw [State.skipIf_eq]
    exact fun _ _ => rfl
  all_goals exact .done fun _ _ => rfl

/-- Settles O50: the two frames of an instruction, which the write of `step_result` keeps. -/
theorem instructionWrites : Obligations.InstructionWrites := by
  unfold Obligations.InstructionWrites
  intro i s t h
  constructor
  · exact (exec_writes i s).of_next h fun _ e hu => hu.setStepResult e
  · exact (exec_writesReg i s).of_next h fun _ _ hu => hu

/-! ### VF as a flag and as a register (R22-R24) -/

theorem flagByte_zero_or_one (c : Bool) : (flagByte c).toNat = 0 ∨ (flagByte c).toNat = 1 := by
  cases c
  · exact .inl rfl
  · exact .inr rfl

/-- VF holds a flag. -/
def FlagInVF (s : State) : Prop := (s.reg VF).toNat = 0 ∨ (s.reg VF).toNat = 1

theorem flagInVF_setFlag (s : State) (c : Bool) : FlagInVF (s.setFlag c) := by
  rw [FlagInVF, State.reg_setFlag, if_pos rfl]
  exact flagByte_zero_or_one c

/-- The flag is a flag writer's last write to VF (R23). -/
theorem exec_flag {i : Instr} (hi : i.writesFlag = true) (s : State) : EndsIn FlagInVF (exec i s) := by
  cases i
  case addReg | subReg | shrReg | subnReg | shlReg | addI => exact .done (flagInVF_setFlag _ _)
  case drw => exact execDrw_endsIn fun _ _ => flagInVF_setFlag _ _
  all_goals cases hi

/-- The instructions that name VF as an ordinary destination (R24). -/
def NamesVF (i : Instr) : Prop :=
  (∃ nn, i = .ldByte VF nn ∨ i = .addByte VF nn ∨ i = .rnd VF nn) ∨
  (∃ y, i = .ldReg VF y ∨ i = .orReg VF y ∨ i = .andReg VF y ∨ i = .xorReg VF y) ∨
  i = .ldVxDt VF ∨ i = .ldVxK VF ∨ i = .ldRegs VF

/-- An instruction that writes VF is a flag writer or names it. -/
theorem namesVF_of_writesReg {i : Instr} (hflag : i.writesFlag = false) (h : i.writesReg VF) : NamesVF i := by
  cases i
  case ldByte x nn | addByte x nn | rnd x nn =>
    cases (h : VF = x)
    exact .inl ⟨nn, by simp⟩
  case ldReg x y | orReg x y | andReg x y | xorReg x y =>
    cases (h : VF = x)
    exact .inr (.inl ⟨y, by simp⟩)
  case ldVxDt x | ldVxK x =>
    cases (h : VF = x)
    exact .inr (.inr (by simp))
  case ldRegs x =>
    have hx : x = VF := Fin.le_antisymm (Fin.le_last x) h
    exact .inr (.inr (by simp [hx]))
  case addReg | subReg | shrReg | subnReg | shlReg | addI | drw => cases hflag
  all_goals exact h.elim

/-- Settles O35: a flag writer leaves its flag in VF, and another instruction writes VF only as a register its row names. -/
theorem flagWriters : Obligations.FlagWriters := by
  unfold Obligations.FlagWriters
  intro i s t h
  obtain ⟨-, hregs⟩ := instructionWrites i s t h
  refine ⟨fun hi => (exec_flag hi s).of_next h fun _ _ hu => hu, fun hi hne => namesVF_of_writesReg hi ?_⟩
  exact Classical.byContradiction fun hVF => hne (hregs VF hVF)

/-! ### The invariant (R26, R28, R29, 20_memory.md R50) -/

theorem State.Inv.setPc {s : State} (h : s.Inv) {a : Word} (ha : a.toNat ≤ 0x10FE) : (s.setPc a).Inv := by
  obtain ⟨hmem, -, hI, hdepth, hstack⟩ := h
  exact ⟨hmem, ha, hI, hdepth, hstack⟩

theorem State.Inv.setI {s : State} (h : s.Inv) {a : Word} (ha : a.toNat ≤ 0xFFF) : (s.setI a).Inv := by
  obtain ⟨hmem, hpc, -, hdepth, hstack⟩ := h
  exact ⟨hmem, hpc, ha, hdepth, hstack⟩

theorem State.Inv.setMem {s : State} (h : s.Inv) {m : Memory} (hm : m.wf = true) : (s.setMem m).Inv := by
  obtain ⟨-, hpc, hI, hdepth, hstack⟩ := h
  exact ⟨hm, hpc, hI, hdepth, hstack⟩

/-- The invariant while an instruction runs: pc is a fetchable address plus 2 (R25, 20_memory.md R55). -/
def State.RunInv (s : State) : Prop := s.Inv ∧ 2 ≤ s.pc.toNat ∧ s.pc.toNat ≤ 0x1000

/-- The advance and a skip do not wrap (R26). -/
theorem toNat_add_two {a : Word} (h : a.toNat ≤ 0x1000) : (a + 2).toNat = a.toNat + 2 := by
  rw [BitVec.toNat_add]
  exact Nat.mod_eq_of_lt (show a.toNat + 2 < 65536 by omega)

theorem State.Inv.advance {s : State} (h : s.Inv) (hpc : s.pc.toNat ≤ 0xFFE) : s.advance.RunInv := by
  have hadv : s.advance.pc.toNat = s.pc.toNat + 2 := toNat_add_two (by omega)
  refine ⟨h.setPc ?_, ?_, ?_⟩
  · exact Nat.le_trans (Nat.le_of_eq hadv) (by omega)
  · omega
  · omega

namespace State.RunInv

variable {s : State} (h : s.RunInv)
include h

theorem inv_skipIf (c : Bool) : (s.skipIf c).Inv := by
  obtain ⟨hinv, -, hhigh⟩ := h
  have hskip := toNat_add_two hhigh
  cases c with
  | false => exact hinv
  | true => exact hinv.setPc (by omega)

theorem inv_jp (nnn : Addr) : (s.setPc (zextAddr nnn)).Inv := by
  have hnnn := nnn.isLt
  refine h.1.setPc ?_
  rw [toNat_zextAddr]
  omega

theorem inv_jpV0 (nnn : Addr) (v0 : Byte) : (s.setPc (offsetAddr nnn v0)).Inv := by
  have hnnn := nnn.isLt
  have hv0 := v0.isLt
  refine h.1.setPc ?_
  rw [toNat_offsetAddr]
  omega

/-- CALL pushes an advanced pc on a stack with room (R26, R29). -/
theorem inv_call (nnn : Addr) (hroom : s.stack.length < 16) : ((s.setStack (s.stack ++ [s.pc])).setPc (zextAddr nnn)).Inv := by
  obtain ⟨-, hpc, -⟩ := h.inv_jp nnn
  obtain ⟨⟨hmem, -, hI, -, hstack⟩, -, hhigh⟩ := h
  refine ⟨hmem, hpc, hI, ?_, ?_⟩
  · exact Nat.le_trans (Nat.le_of_eq List.length_append) hroom
  · exact List.forall_mem_append.mpr ⟨hstack, List.forall_mem_singleton.mpr hhigh⟩

/-- RET moves a stack entry to pc. -/
theorem inv_ret {l : List Word} {a : Word} (hs : s.stack = l ++ [a]) : ((s.setStack l).setPc a).Inv := by
  obtain ⟨⟨hmem, hpc, hI, hdepth, hstack⟩, -, -⟩ := h
  rw [hs, List.length_append] at hdepth
  rw [hs, List.forall_mem_append, List.forall_mem_singleton] at hstack
  refine ⟨hmem, ?_, hI, ?_, hstack.1⟩
  · exact Nat.le_trans hstack.2 (by decide)
  · exact Nat.le_trans (Nat.le_add_right _ _) hdepth

/-- FX0A moves pc back to where its word was fetched. -/
theorem inv_retry : (s.setPc (s.pc - 2)).Inv := by
  obtain ⟨hinv, hlow, hhigh⟩ := h
  have hback : (s.pc - 2).toNat = s.pc.toNat - 2 := BitVec.toNat_sub_of_le hlow
  exact hinv.setPc (by omega)

theorem inv_ldI (nnn : Addr) : (s.setI (zextAddr nnn)).Inv := by
  have hnnn := nnn.isLt
  refine h.1.setI ?_
  rw [toNat_zextAddr]
  omega

theorem inv_addI (v : Byte) : (s.setI (BitVec.ofNat 16 ((s.I.toNat + v.toNat) % 4096))).Inv := by
  have hlt := Nat.mod_lt (s.I.toNat + v.toNat) (show 4096 > 0 by decide)
  refine h.1.setI ?_
  rw [BitVec.toNat_ofNat]
  omega

theorem inv_ldF (v : Byte) : (s.setI (fontAddr v)).Inv := by
  have hv := v.isLt
  refine h.1.setI ?_
  rw [toNat_fontAddr]
  omega

theorem inv_storeAll (l : List (Nat × Byte)) : (storeAll l s).1.Inv := by
  rw [storeAll_fields]
  exact h.1.setMem (storeAll_wf h.1.1)

end State.RunInv

/-- An instruction run after the advance of a fetched word keeps the invariant. -/
theorem exec_inv {s : State} (h : s.RunInv) (i : Instr) : EndsIn State.Inv (exec i s) := by
  have hinv := h.1
  cases i
  case jp => exact .done (h.inv_jp _)
  case jpV0 => exact .done (h.inv_jpV0 _ _)
  case call => exact execCall_endsIn hinv (h.inv_call _)
  case ret => exact execRet_endsIn hinv fun _ _ => h.inv_ret
  case seByte | sneByte | seReg | sneReg | skp | sknp => exact .done (h.inv_skipIf _)
  case ldI => exact .done (h.inv_ldI _)
  case addI => exact .done (h.inv_addI _)
  case ldF => exact .done (h.inv_ldF _)
  case ldB | stRegs => exact .finish (h.inv_storeAll _) _
  case ldRegs =>
    refine .finish ?_ _
    rw [loadAll_fields]
    exact hinv
  case drw => exact execDrw_endsIn fun _ _ => hinv
  case ldVxK => exact execLdVxK_endsIn h.inv_retry fun _ => hinv
  all_goals exact .done hinv

/-! ### What a STEP does, by what it fetches (30_encoding.md R84, R86; 20_memory.md R55) -/

section
variable {s : State} (b : Byte)

theorem opStep_of_fetch_none (hf : s.fetch = none) :
    opStep b s = raiseAt (.memoryBoundsError s.pc.toNat) s.pc 0 (s.setRandByte b) := by
  rw [opStep, hf]

theorem opStep_of_decode_none {op : Word} (hf : s.fetch = some op) (hi : decode op = none) :
    opStep b s = raiseAt .unknownOpcode s.pc op (s.setRandByte b).advance := by
  simp only [opStep, hf, hi]

theorem opStep_of_decode {op : Word} {i : Instr} (hf : s.fetch = some op) (hi : decode op = some i) :
    opStep b s = exec i (s.setRandByte b).advance := by
  simp only [opStep, hf, hi, execUnder_eq_exec]

end

/-- A STEP keeps the invariant: a fetch that faults leaves pc, and any other STEP advances it. -/
theorem opStep_inv {s : State} (h : s.Inv) (b : Byte) : EndsIn State.Inv (opStep b s) := by
  rcases Nat.lt_or_ge 0xFFE s.pc.toNat with hpc | hpc
  · rw [opStep_of_fetch_none b (State.fetch_none hpc)]
    exact .raiseAt (u := s.setRandByte b) h ..
  · have hrun : (s.setRandByte b).advance.RunInv := State.Inv.advance h hpc
    have hf := State.fetch_some hpc
    cases hi : decode (wordOfBytes (s.byteAt s.pc.toNat) (s.byteAt (s.pc.toNat + 1))) with
    | none =>
      rw [opStep_of_decode_none b hf hi]
      exact .raiseAt hrun.1 ..
    | some i =>
      rw [opStep_of_decode b hf hi]
      exact exec_inv hrun i

theorem reset_inv : State.reset.Inv := ⟨Memory.wf_reset, by decide, by decide, by decide, by simp⟩

theorem opLoad_inv {s : State} (h : s.Inv) (rom : List Byte) : (opLoad rom s).Inv := by
  rcases Nat.lt_or_ge 3584 rom.length with hlong | hfits
  · rw [opLoad_tooLong hlong]
    exact h
  · rw [opLoad_fits hfits]
    exact h.setMem (Memory.wf_writeBytes (by omega) h.1)

theorem perform_inv {s t : State} (h : s.Inv) {op : Operation} (hp : perform op s = .next t) : t.Inv := by
  cases op with
  | step b => exact (opStep_inv h b).of_next hp fun _ _ hu => hu
  | load rom =>
    cases hp
    exact opLoad_inv h rom
  | reset =>
    cases hp
    exact reset_inv
  | tick | setKey _ _ =>
    cases hp
    exact h

/-- Settles O13: a step is an operation, from a state that differs in the model's own fields only. -/
theorem stepKeepsInvariant : Obligations.StepKeepsInvariant := by
  unfold Obligations.StepKeepsInvariant
  intro s t h hstep
  cases hp : s.pending with
  | nil =>
    rw [step, performNext_nil hp] at hstep
    exact perform_inv (s := s.setDraws (s.draws + 1)) (op := .step _) h hstep
  | cons op rest =>
    rw [step, performNext_cons hp] at hstep
    exact perform_inv (s := s.setPending rest) h hstep

/-- Settles O14: reset memory is the empty list, which is canonical, and the other parts are small. -/
theorem resetMeetsInvariant : Obligations.ResetMeetsInvariant := reset_inv

/-! ### The state after reset (R37) -/

theorem byteAt_reset (a : Nat) : State.reset.byteAt a = Memory.unlisted a := rfl

theorem reg_reset (r : Reg) : State.reset.reg r = 0 := Vector.getElem_replicate _

/-- Settles O16: memory holds what an unlisted address reads as, and every other part the value `State.resetOf` names. -/
theorem resetState : Obligations.ResetState := by
  unfold Obligations.ResetState
  refine ⟨fun a ha => ?below, fun k _ => ?font, fun a ha _ => ?above, rfl, rfl, fun r => ?regs, rfl, rfl, rfl,
    pixel_blankFb, fun k => ?keys, rfl, rfl⟩
  case below => rw [byteAt_reset, Memory.unlisted_outside (.inl ha)]
  case font => rw [byteAt_reset, Memory.unlisted_font]
  case above => rw [byteAt_reset, Memory.unlisted_outside (.inr ha)]
  case regs => rw [reg_reset]; rfl
  case keys => simp

/-! ### STEPs that wait (R34, 40_control.md R102, 44_timer_key.md R215) -/

/-- Moving pc back after the advance undoes it. -/
theorem advance_setPc (s : State) : s.advance.setPc s.pc = s := rfl

theorem exec_ldVxK_waits {s : State} (h : ∀ k : Key, s.keypad[k] = false) (x : Reg) :
    exec (.ldVxK x) s.advance = done s := by
  have hnone : lowestPressed s.advance.keypad = none := lowestPressed_none h
  rw [exec, execLdVxK, hnone]
  show done (s.advance.setPc (s.pc + 2 - 2)) = done s
  rw [BitVec.add_sub_cancel, advance_setPc]

theorem exec_jp_self {s : State} {nnn : Addr} (h : nnn.toNat = s.pc.toNat) : exec (.jp nnn) s.advance = done s := by
  have htarget : zextAddr nnn = s.pc := BitVec.eq_of_toNat_eq (by rw [toNat_zextAddr, h])
  rw [exec, execJp]
  show done (s.advance.setPc (zextAddr nnn)) = done s
  rw [htarget, advance_setPc]

/-- Settles O49: both instructions bring pc back to where it was before the advance. -/
theorem waitingStepsChangeNothing : Obligations.WaitingStepsChangeNothing := by
  unfold Obligations.WaitingStepsChangeNothing
  intro s op i b rest _ hf hi hp hwait
  have hstep : step s = exec i ((s.setPending rest).setRandByte b).advance := by
    rw [step, performNext_cons hp]
    exact opStep_of_decode b (s := s.setPending rest) hf hi
  have hdone : exec i ((s.setPending rest).setRandByte b).advance = done ((s.setPending rest).setRandByte b) := by
    rcases hwait with ⟨⟨x, rfl⟩, hkeys⟩ | ⟨nnn, rfl, hself⟩
    · exact exec_ldVxK_waits (s := (s.setPending rest).setRandByte b) hkeys x
    · exact exec_jp_self hself
  refine ⟨_, hstep.trans hdone, rfl, rfl, ?_⟩
  simp [sameExcept_iff]

/-! ### What no operation reads (R30, R36) -/

/-- A blind update passes through a STEP, when it leaves alone the latched byte and the sound timer. -/
theorem opStep_blind {g g' : State → State} (hg : Blind g g') (hrand : ∀ s b, g (s.setRandByte b) = (g s).setRandByte b)
    (hbyte : ∀ s, (g s).randByte = s.randByte) (hst : ∀ s b, g (s.setSt b) = (g s).setSt b) {b : Byte} {s t : State}
    (h : opStep b s = .next t) : opStep b (g s) = .next (g' t) := by
  have hf : (g s).fetch = s.fetch := State.fetch_congr (hg.mem s) (hg.pc s)
  have hadv : ((g s).setRandByte b).advance = g (s.setRandByte b).advance := by
    rw [State.advance, State.advance, ← hrand, hg.pc, hg.setPc]
  cases hop : s.fetch with
  | none =>
    rw [opStep_of_fetch_none b hop, raiseAt_next] at h
    rw [opStep_of_fetch_none b (hf.trans hop), raiseAt_next, ← hrand, hg.pc, hg.setStepResult, h]
  | some op =>
    cases hi : decode op with
    | none =>
      rw [opStep_of_decode_none b hop hi, raiseAt_next] at h
      rw [opStep_of_decode_none b (hf.trans hop) hi, raiseAt_next, hadv, hg.pc, hg.setStepResult, h]
    | some i =>
      rw [opStep_of_decode b hop hi] at h
      rw [opStep_of_decode b (hf.trans hop) hi, hadv]
      exact exec_blind hg i (fun _ _ => hst) (fun _ _ _ => hbyte _) h

theorem opLoad_setStepResult (rom : List Byte) (s : State) (r : StepResult) :
    opLoad rom (s.setStepResult r) = (opLoad rom s).setStepResult r := by
  unfold opLoad
  split
  · rfl
  · rfl

theorem opLoad_setLoadResult (rom : List Byte) (s : State) (l : LoadResult) :
    opLoad rom (s.setLoadResult l) = opLoad rom s := by
  unfold opLoad
  split
  · rfl
  · rfl

/-- Settles O52: a STEP is blind to both results and overwrites `step_result`, a LOAD overwrites `load_result`. -/
theorem resultsAreNotRead : Obligations.ResultsAreNotRead := by
  unfold Obligations.ResultsAreNotRead
  intro op s t r l h
  cases op with
  | step b =>
    have hr : opStep b (s.setStepResult r) = .next t :=
      opStep_blind (blind_setStepResult r) (fun _ _ => rfl) (fun _ => rfl) (fun _ _ => rfl) h
    exact opStep_blind (blind_setLoadResult l) (fun _ _ => rfl) (fun _ => rfl) (fun _ _ => rfl) hr
  | load rom =>
    cases h
    rw [perform, opLoad_setLoadResult, opLoad_setStepResult]
  | reset | tick | setKey _ _ =>
    cases h
    rfl

/-- Settles O53: another ST passes through every instruction but FX18, which overwrites it. -/
theorem soundTimerIsNotRead : Obligations.SoundTimerIsNotRead := by
  unfold Obligations.SoundTimerIsNotRead
  intro i s t b h
  constructor
  · rintro ⟨x, rfl⟩
    exact h
  · intro hi
    exact exec_blind (blind_setSt b) i (fun x hx => absurd hx (hi x)) (fun _ _ _ => rfl) h

end Sys2Proof.Machine

/-! Proofs: memory (20_memory.md): a canonical memory is determined by what it reads, the fetch and its bound, words that FX33 and
FX55 store, and words the host places where the next STEP fetches. -/

/-! ### Canonical memories (R50; log 15) -/

namespace Sys2Proof.Machine.Memory

/-- Where a canonical memory does not read as unlisted, its first entry lies at that address or below. -/
theorem head_of_read_ne_unlisted {lo a : Nat} {m : Memory} (hm : wfFrom lo m = true) (ha : read m a ≠ unlisted a) :
    ∃ k b rest, m = (k, b) :: rest ∧ k ≤ a := by
  cases m with
  | nil => exact absurd rfl ha
  | cons c rest =>
    obtain ⟨k, b⟩ := c
    refine ⟨k, b, rest, rfl, Nat.le_of_not_lt fun hlt => ha (read_below hlt ?_)⟩
    exact wfFrom_cons.mpr ⟨Nat.le_refl k, (wfFrom_cons.mp hm).2⟩

theorem read_head (k : Nat) (b : Byte) (rest : Memory) : read ((k, b) :: rest) k = b := if_pos rfl

theorem read_past_head {k a : Nat} (h : k < a) (b : Byte) (rest : Memory) : read ((k, b) :: rest) a = read rest a :=
  if_neg (Nat.ne_of_lt h)

/-- Two memories canonical from `lo` on that read the same there are the same list: each one's first entry is listed in the
other, so the first entries agree, and past them the two read as the rest of each. -/
theorem eq_of_read_eq_from {lo : Nat} {m m' : Memory} (hm : wfFrom lo m = true) (hm' : wfFrom lo m' = true)
    (h : ∀ a, lo ≤ a → a < 4096 → read m a = read m' a) : m = m' := by
  induction m generalizing lo m' with
  | nil =>
    cases m' with
    | nil => rfl
    | cons c' rest' =>
      obtain ⟨k', b'⟩ := c'
      obtain ⟨hlo', hk', hb', -⟩ := wfFrom_cons.mp hm'
      have hread := h k' hlo' hk'
      rw [read_head] at hread
      exact absurd hread.symm hb'
  | cons c rest ih =>
    obtain ⟨k, b⟩ := c
    obtain ⟨hlo, hk, hb, hrest⟩ := wfFrom_cons.mp hm
    have hread : read m' k = b := (h k hlo hk).symm.trans (read_head k b rest)
    obtain ⟨k', b', rest', rfl, hle⟩ := head_of_read_ne_unlisted hm' (hread ▸ hb)
    obtain ⟨hlo', hk', hb', hrest'⟩ := wfFrom_cons.mp hm'
    have hread' : read ((k, b) :: rest) k' = b' := (h k' hlo' hk').trans (read_head k' b' rest')
    obtain ⟨_, _, _, hcons, hge⟩ := head_of_read_ne_unlisted hm (hread' ▸ hb')
    cases hcons
    obtain rfl := Nat.le_antisymm hge hle
    obtain rfl : b' = b := (read_head k b' rest').symm.trans hread
    have htail : rest = rest' := ih hrest hrest' fun a ha hlt => by
      rw [← read_past_head ha b' rest, ← read_past_head ha b' rest']
      exact h a (by omega) hlt
    rw [htail]

end Sys2Proof.Machine.Memory

namespace Sys2Proof.Machine

/-- Settles O15: the canonical form from address 0 on. -/
theorem canonicalMemoryUnique : Obligations.CanonicalMemoryUnique := by
  unfold Obligations.CanonicalMemoryUnique
  exact fun m m' hm hm' h => Memory.eq_of_read_eq_from hm hm' fun a _ => h a

/-! ### The fetch (R54, R55) -/

/-- The word at pc is big-endian (R54). -/
theorem State.fetch_word {s : State} (h : s.pc.toNat ≤ 0xFFE) : ∃ op, s.fetch = some op ∧
    op.toNat = 256 * (s.byteAt s.pc.toNat).toNat + (s.byteAt (s.pc.toNat + 1)).toNat :=
  ⟨_, State.fetch_some h, toNat_wordOfBytes ..⟩

/-- A STEP whose fetch faults: it writes `step_result` and the model's own fields only (R55). -/
theorem step_of_fetch_none {s : State} {b : Byte} {rest : List Operation} (hpc : 0xFFE < s.pc.toNat)
    (hp : s.pending = .step b :: rest) :
    step s = .next (((s.setPending rest).setRandByte b).setStepResult (.fault (.memoryBoundsError s.pc.toNat) s.pc 0)) := by
  rw [step, performNext_cons hp]
  exact opStep_of_fetch_none b (s := s.setPending rest) (State.fetch_none hpc)

/-- Settles O9: the fetch by the bound on pc; a fault leaves pc where it is, so the next STEP faults in the same way. -/
theorem fetchBound : Obligations.FetchBound := by
  unfold Obligations.FetchBound
  intro s
  refine ⟨State.fetch_word, fun hpc => ⟨State.fetch_none hpc, fun b rest hp => ?_⟩⟩
  refine ⟨_, step_of_fetch_none hpc hp, rfl, rfl, rfl, ?frame, fun b' rest' hp' => ?_⟩
  case frame => simp [sameExcept_iff]
  refine ⟨_, step_of_fetch_none (b := b') (rest := rest') hpc hp', rfl, ?_⟩
  simp [sameExcept_iff]

/-! ### Words stored by the transfers (R64, 70_reset_and_hazards.md R271) -/

/-- The byte at an address up to 0xFFF among consecutive stores is the one stored, whether or not a later store faults. -/
theorem byteAt_of_finish_storeAll {i : Instr} {l : List (Nat × Byte)} {s t : State} (hw : s.mem.wf = true) {start : Nat}
    (hl : l.map (·.1) = List.range' start l.length) (h : finish i (storeAll l s) = .next t) {a : Nat} {v : Byte}
    (hmem : (a, v) ∈ l) (ha : a ≤ 0xFFF) : t.byteAt a = v := by
  have hnodup : (l.map (·.1)).Nodup := hl ▸ List.nodup_range'
  have hmade : (a, v) ∈ madeStores l := (mem_takeWhile_below Prod.fst l start hl _).mpr ⟨hmem, ha⟩
  have hends : EndsIn (fun u => u.byteAt a = v) (finish i (storeAll l s)) := .finish (storeAll_made hw hnodup hmade) i
  exact hends.of_next h fun _ _ hu => hu

/-- FX55 leaves Vk at `I + k` (42_index_memory.md R175). -/
theorem byteAt_of_exec_stRegs {s t : State} {x k : Reg} (hw : s.mem.wf = true) (h : exec (.stRegs x) s = .next t)
    (hk : k ≤ x) (ha : s.effAddr k.val ≤ 0xFFF) : t.byteAt (s.effAddr k.val) = s.reg k :=
  byteAt_of_finish_storeAll hw (regStores_addrs x s) h (List.mem_map.mpr ⟨k, mem_regsUpTo.mpr hk, rfl⟩) ha

/-- FX33 leaves each of its digits at its address (R173). -/
theorem byteAt_of_exec_ldB {s t : State} {x : Reg} (hw : s.mem.wf = true) (h : exec (.ldB x) s = .next t) {a : Nat} {v : Byte}
    (hmem : (a, v) ∈ bcdStores x s) (ha : a ≤ 0xFFF) : t.byteAt a = v :=
  byteAt_of_finish_storeAll hw (bcdStores_addrs x s) h hmem ha

theorem toNat_bcdHundreds (v : Byte) : (bcdHundreds v).toNat = v.toNat / 100 := by
  have hv := v.isLt
  rw [bcdHundreds, BitVec.toNat_ofNat]
  omega

theorem toNat_bcdTens (v : Byte) : (bcdTens v).toNat = v.toNat / 10 % 10 := by
  rw [bcdTens, BitVec.toNat_ofNat]
  omega

theorem toNat_bcdOnes (v : Byte) : (bcdOnes v).toNat = v.toNat % 10 := by
  rw [bcdOnes, BitVec.toNat_ofNat]
  omega

/-- A pc set to a fetchable address is that address. -/
theorem toNat_setPc_of_fetchable {a : Nat} (h : a ≤ 0xFFE) (s : State) : (s.setPc (BitVec.ofNat 16 a)).pc.toNat = a :=
  (BitVec.toNat_ofNat a 16).trans (Nat.mod_eq_of_lt (by omega))

/-- With pc set to an address below 0xFFF the fetch reads the two bytes from there. -/
theorem fetch_setPc {t : State} {a : Nat} {hi lo : Byte} (ha : a + 1 ≤ 0xFFF) (hhi : t.byteAt a = hi)
    (hlo : t.byteAt (a + 1) = lo) : (t.setPc (BitVec.ofNat 16 a)).fetch = some (wordOfBytes hi lo) := by
  have hpc := toNat_setPc_of_fetchable (a := a) (by omega) t
  rw [State.fetch_some (by omega), hpc, State.byteAt_setPc, State.byteAt_setPc, hhi, hlo]

/-- Two digits that FX33 stored next to each other are fetched as a word. -/
theorem fetch_of_exec_ldB {s t : State} {x : Reg} (hw : s.mem.wf = true) (h : exec (.ldB x) s = .next t) {k : Nat}
    {hi lo : Byte} (hhi : (s.effAddr k, hi) ∈ bcdStores x s) (hlo : (s.effAddr (k + 1), lo) ∈ bcdStores x s)
    (hfits : s.effAddr (k + 1) ≤ 0xFFF) :
    (t.setPc (BitVec.ofNat 16 (s.effAddr k))).fetch = some (wordOfBytes hi lo) :=
  fetch_setPc hfits (byteAt_of_exec_ldB hw h hhi (Nat.le_of_succ_le hfits)) (byteAt_of_exec_ldB hw h hlo hfits)

/-- Settles O42: the two stores are made, whatever comes after them, and the fetch reads what they left. -/
theorem storedCodeIsFetched : Obligations.StoredCodeIsFetched := by
  unfold Obligations.StoredCodeIsFetched
  rintro s t _ x k hw hfits rfl
  have hfirst : s.effAddr k ≤ 0xFFF := Nat.le_of_succ_le hfits
  refine ⟨fun hk hexec hx => ?_, fun hexec => ⟨?_, ?_⟩⟩
  · have hhi := byteAt_of_exec_stRegs (k := ⟨k, by omega⟩) hw hexec (Nat.le_of_succ_le hx) hfirst
    have hlo := byteAt_of_exec_stRegs (k := ⟨k + 1, hk⟩) hw hexec hx hfits
    exact ⟨_, fetch_setPc hfits hhi hlo, toNat_wordOfBytes ..⟩
  · rintro rfl
    have hf := fetch_of_exec_ldB (hi := bcdHundreds (s.reg x)) (lo := bcdTens (s.reg x)) hw hexec
      (by simp [bcdStores]) (by simp [bcdStores]) hfits
    exact ⟨_, hf, by rw [toNat_wordOfBytes, toNat_bcdHundreds, toNat_bcdTens]⟩
  · rintro rfl
    have hf := fetch_of_exec_ldB (hi := bcdTens (s.reg x)) (lo := bcdOnes (s.reg x)) hw hexec
      (by simp [bcdStores]) (by simp [bcdStores]) hfits
    exact ⟨_, hf, by rw [toNat_wordOfBytes, toNat_bcdTens, toNat_bcdOnes]⟩

end Sys2Proof.Machine

/-! ### The host's word (R54, 30_encoding.md R72, R84) -/

namespace Sys2Proof

section
variable (x y : Reg) (n : Fin 16) (nn : Byte)

/-- A word of group 8 in format XYN is decoded by its `n`. -/
theorem decode_wordXYN_8 : decode (wordXYN 0x8 x y n) = decodeGroup8 (wordXYN 0x8 x y n) := by
  unfold decode
  simp only [fieldFirst_wordXYN] <;> rfl

/-- A word of group E is decoded by its byte. -/
theorem decode_wordXB_E : decode (wordXB 0xE x nn) = decodeGroupE (wordXB 0xE x nn) := by
  unfold decode
  simp only [fieldFirst_wordXB] <;> rfl

/-- A word of group F is decoded by its byte. -/
theorem decode_wordXB_F : decode (wordXB 0xF x nn) = decodeGroupF (wordXB 0xF x nn) := by
  unfold decode
  simp only [fieldFirst_wordXB] <;> rfl

end

/-- The decoder reads back the word of every instruction: its first nibble selects the group, and there the fixed fields the
instruction. -/
theorem decode_encode (i : Instr) : decode (encode i) = some i := by
  cases i <;> unfold encode
  case cls | ret => rfl
  case ldReg | orReg | andReg | xorReg | addReg | subReg | shrReg | subnReg | shlReg =>
    rw [decode_wordXYN_8, decodeGroup8]
    simp only [fieldN_wordXYN, fieldX_wordXYN, fieldY_wordXYN] <;> rfl
  case skp | sknp =>
    rw [decode_wordXB_E, decodeGroupE]
    simp only [fieldNN_wordXB, fieldX_wordXB] <;> rfl
  case ldVxDt | ldVxK | ldDtVx | ldStVx | addI | ldF | ldB | stRegs | ldRegs =>
    rw [decode_wordXB_F, decodeGroupF]
    simp only [fieldNN_wordXB, fieldX_wordXB] <;> rfl
  case jp | call | ldI | jpV0 =>
    unfold decode
    simp only [fieldFirst_wordA, fieldNNN_wordA] <;> rfl
  case seByte | sneByte | ldByte | addByte | rnd =>
    unfold decode
    simp only [fieldFirst_wordXB, fieldX_wordXB, fieldNN_wordXB] <;> rfl
  case seReg | sneReg | drw =>
    unfold decode
    simp only [fieldFirst_wordXYN, fieldX_wordXYN, fieldY_wordXYN, fieldN_wordXYN] <;> rfl

theorem decodeTableWord_encode (i : Instr) : decodeTableWord 16 (encode i).toNat = some i := by
  simp only [decodeTableWord, decodeBytes, wordOfBytes_tableBytes, decode_encode]

end Sys2Proof

namespace Sys2Proof.Machine

section
variable (s : State) (nbits w : Nat)

theorem toNat_withFetchWord_pc : (s.withFetchWord nbits w).pc.toNat = s.fetchAddr :=
  toNat_setPc_of_fetchable s.fetchAddr_le s

/-- A fetchable pc stays where it is. -/
theorem withFetchWord_pc {s : State} (h : s.pc.toNat ≤ 0xFFE) : (s.withFetchWord nbits w).pc = s.pc :=
  BitVec.eq_of_toNat_eq ((toNat_withFetchWord_pc s nbits w).trans (State.fetchAddr_of_fetchable h))

theorem byteAt_withFetchWord_hi (h : s.mem.wf = true) :
    (s.withFetchWord nbits w).byteAt s.fetchAddr = (tableBytes nbits w).1 :=
  (Memory.read_write_other (Nat.ne_of_lt (Nat.lt_succ_self _)) _ _).trans (Memory.read_write_same h _ _)

theorem byteAt_withFetchWord_lo (h : s.mem.wf = true) :
    (s.withFetchWord nbits w).byteAt (s.fetchAddr + 1) = (tableBytes nbits w).2 :=
  Memory.read_write_same (Memory.wf_write h (Nat.lt_of_le_of_lt s.fetchAddr_le (by decide)) _) _ _

/-- Placing a word writes two bytes. -/
theorem withFetchWord_bytes :
    BytesSameExcept (fun a => a = s.fetchAddr ∨ a = s.fetchAddr + 1) s (s.withFetchWord nbits w) := by
  intro a ha
  obtain ⟨hne, hne'⟩ := not_or.mp ha
  exact (Memory.read_write_other hne' _ _).trans (Memory.read_write_other hne _ _)

theorem withFetchWord_frame : SameExcept [.mem, .pc, .pending] s (s.withFetchWord nbits w) := by
  simp [sameExcept_iff, State.withFetchWord]

end

/-- The next STEP fetches the placed word. -/
theorem fetch_withFetchWord {s : State} (h : s.mem.wf = true) (op : Word) :
    (s.withFetchWord 16 op.toNat).fetch = some op := by
  have hpc := toNat_withFetchWord_pc s 16 op.toNat
  rw [State.fetch_some (hpc ▸ s.fetchAddr_le), hpc, byteAt_withFetchWord_hi s _ _ h, byteAt_withFetchWord_lo s _ _ h,
    wordOfBytes_tableBytes]

/-- Settles O6: the placed word is fetched, decodes to the instruction it encodes, and so is the one the STEP runs. -/
theorem tableWordDecodesAndRuns : Obligations.TableWordDecodesAndRuns := by
  unfold Obligations.TableWordDecodesAndRuns
  intro i s h
  refine ⟨decodeTableWord_encode i, _, rfl, withFetchWord_frame s _ _, withFetchWord_pc _ _, ?bytes, ?runs⟩
  case bytes =>
    rw [toNat_withFetchWord_pc]
    exact withFetchWord_bytes s _ _
  case runs =>
    have hf := fetch_withFetchWord h (encode i)
    rw [step, performNext_nil rfl]
    exact opStep_of_decode _ (s := (s.withFetchWord 16 (encode i).toNat).setDraws _) hf (decode_encode i)

end Sys2Proof.Machine

/-! Proofs: the encoding (30_encoding.md): the word of every instruction as a number, the decoder and the encoder against each
other, the words that do not decode, and the STEP from what it decodes. -/

namespace Sys2Proof

/-! ### The word of an instruction as a number (R72) -/

section
variable (f : BitVec 4) (x y : Reg) (nn : Byte) (n : Fin 16)

/-- Format XB, `x` in bits 11:8. -/
theorem toNat_wordXB_operands : (wordXB f x nn).toNat = f.toNat * 4096 + 256 * x.val + nn.toNat := by
  rw [toNat_wordXB, Nat.mul_comm x.val]

/-- Format XF, its fixed bits first. -/
theorem toNat_wordXB_fixed : (wordXB f x nn).toNat = f.toNat * 4096 + nn.toNat + 256 * x.val := by
  rw [toNat_wordXB_operands, Nat.add_right_comm]

/-- Format XYN, `x` in bits 11:8 and `y` in bits 7:4. -/
theorem toNat_wordXYN_operands :
    (wordXYN f x y n).toNat = f.toNat * 4096 + 256 * x.val + 16 * y.val + n.val := by
  rw [toNat_wordXYN, Nat.mul_comm x.val, Nat.mul_comm y.val]

/-- Format XY, its fixed bits first. -/
theorem toNat_wordXYN_fixed :
    (wordXYN f x y n).toNat = f.toNat * 4096 + n.val + 256 * x.val + 16 * y.val := by
  rw [toNat_wordXYN_operands]
  omega

end

/-- Settles O1: each instruction's word is one of the formats at its fixed fields. -/
theorem instructionWords : Obligations.InstructionWords := by
  unfold Obligations.InstructionWords
  intro x y nn nnn n
  refine ⟨rfl, rfl, ?jp, ?call, ?ldI, ?jpV0, ?seByte, ?sneByte, ?ldByte, ?addByte, ?rnd, ?seReg, ?ldReg, ?orReg, ?andReg,
    ?xorReg, ?addReg, ?subReg, ?shrReg, ?subnReg, ?shlReg, ?sneReg, ?drw, ?skp, ?sknp, ?ldVxDt, ?ldVxK, ?ldDtVx, ?ldStVx,
    ?addI, ?ldF, ?ldB, ?stRegs, ?ldRegs⟩
  case jp | call | ldI | jpV0 => exact toNat_wordA ..
  case seByte | sneByte | ldByte | addByte | rnd => exact toNat_wordXB_operands ..
  case drw => exact toNat_wordXYN_operands ..
  case skp | sknp | ldVxDt | ldVxK | ldDtVx | ldStVx | addI | ldF | ldB | stRegs | ldRegs => exact toNat_wordXB_fixed ..
  all_goals exact toNat_wordXYN_fixed ..

/-! ### Decoding and encoding are inverse (R72, R76) -/

/-- Settles O2: the round trip holds of every instruction. -/
theorem decodeOfEncode : Obligations.DecodeOfEncode := by
  unfold Obligations.DecodeOfEncode
  exact fun i _ => decode_encode i

section
variable {op : Word} {f : BitVec 4}

theorem wordA_of_fields (hf : (fieldFirst op).toNat = f.toNat) : wordA f (fieldNNN op) = op := by
  rw [← BitVec.eq_of_toNat_eq hf, wordA_fields]

theorem wordXB_of_fields {nn : Byte} (hf : (fieldFirst op).toNat = f.toNat) (hnn : (fieldNN op).toNat = nn.toNat) :
    wordXB f (fieldX op) nn = op := by
  rw [← BitVec.eq_of_toNat_eq hf, ← BitVec.eq_of_toNat_eq hnn, wordXB_fields]

theorem wordXYN_of_fields {n : Fin 16} (hf : (fieldFirst op).toNat = f.toNat) (hn : (fieldN op).val = n.val) :
    wordXYN f (fieldX op) (fieldY op) n = op := by
  rw [← BitVec.eq_of_toNat_eq hf, ← Fin.ext hn, wordXYN_fields]

end

section
variable {op : Word} {i : Instr}

/-- The two whole words of group 0 (R77). -/
theorem encode_of_decodeGroup0 (h : decodeGroup0 op = some i) : encode i = op := by
  unfold decodeGroup0 at h
  split at h
  case isTrue hop => cases h; exact hop.symm
  case isFalse =>
    split at h
    case isTrue hop => cases h; exact hop.symm
    case isFalse => cases h

theorem encode_of_decodeGroup8 (hf : (fieldFirst op).toNat = 0x8) (h : decodeGroup8 op = some i) : encode i = op := by
  unfold decodeGroup8 at h
  split at h <;> cases h
  all_goals exact wordXYN_of_fields hf ‹_›

theorem encode_of_decodeGroupE (hf : (fieldFirst op).toNat = 0xE) (h : decodeGroupE op = some i) : encode i = op := by
  unfold decodeGroupE at h
  split at h <;> cases h
  all_goals exact wordXB_of_fields hf ‹_›

theorem encode_of_decodeGroupF (hf : (fieldFirst op).toNat = 0xF) (h : decodeGroupF op = some i) : encode i = op := by
  unfold decodeGroupF at h
  split at h <;> cases h
  all_goals exact wordXB_of_fields hf ‹_›

/-- A word that decodes is composed of the fields its first nibble's group read: all of them operands, or the rest fixed at the
values the group tested. -/
theorem encode_of_decode (h : decode op = some i) : encode i = op := by
  rcases decode_cases op with ⟨-, hd⟩ | ⟨hf, hd⟩ | ⟨hf, hd⟩ | ⟨hf, hd⟩ | ⟨hf, hd⟩ | ⟨hf, hd⟩ | ⟨hf, hd⟩ | ⟨hf, hd⟩ |
    ⟨hf, hd⟩ | ⟨hf, hd⟩ | ⟨hf, hd⟩ | ⟨hf, hd⟩ | ⟨hf, hd⟩ | ⟨hf, hd⟩ | ⟨hf, hd⟩ | ⟨hf, hd⟩ <;> rw [hd] at h
  · exact encode_of_decodeGroup0 h
  · cases h; exact wordA_of_fields hf
  · cases h; exact wordA_of_fields hf
  · cases h; exact wordXB_of_fields hf rfl
  · cases h; exact wordXB_of_fields hf rfl
  · obtain ⟨hn, ⟨⟩⟩ := Option.ite_none_right_eq_some.mp h
    exact wordXYN_of_fields hf hn
  · cases h; exact wordXB_of_fields hf rfl
  · cases h; exact wordXB_of_fields hf rfl
  · exact encode_of_decodeGroup8 hf h
  · obtain ⟨hn, ⟨⟩⟩ := Option.ite_none_right_eq_some.mp h
    exact wordXYN_of_fields hf hn
  · cases h; exact wordA_of_fields hf
  · cases h; exact wordA_of_fields hf
  · cases h; exact wordXB_of_fields hf rfl
  · cases h; exact wordXYN_of_fields hf rfl
  · exact encode_of_decodeGroupE hf h
  · exact encode_of_decodeGroupF hf h

end

/-- Settles O3: the fields read back compose the word; every instruction is well-formed. -/
theorem encodeOfDecode : Obligations.EncodeOfDecode := by
  unfold Obligations.EncodeOfDecode
  exact fun op i h => ⟨encode_of_decode h, i.wf_all⟩

/-! ### The words that do not decode (R77, R78) -/

theorem decodeGroup0_none (op : Word) : decodeGroup0 op = none ↔ op.toNat ≠ 0x00E0 ∧ op.toNat ≠ 0x00EE := by
  unfold decodeGroup0
  split
  case isTrue hcls => exact iff_of_false (Option.some_ne_none _) fun h => h.1 (congrArg BitVec.toNat hcls)
  case isFalse hcls =>
    split
    case isTrue hret => exact iff_of_false (Option.some_ne_none _) fun h => h.2 (congrArg BitVec.toNat hret)
    case isFalse hret =>
      exact iff_of_true rfl ⟨fun h => hcls (BitVec.eq_of_toNat_eq h), fun h => hret (BitVec.eq_of_toNat_eq h)⟩

/-- Settles O4: the first nibble leaves one of the groups, and in it the words none of whose tests holds. -/
theorem undecodedWords : Obligations.UndecodedWords := by
  unfold Obligations.UndecodedWords
  refine ⟨rfl, rfl, fun op => ?_⟩
  have hzero : op.toNat < 0x1000 ↔ op.toNat / 0x1000 = 0 := by omega
  rw [hzero, ← toNat_fieldFirst, ← val_fieldN, ← toNat_fieldNN]
  rcases decode_cases op with ⟨hf, hd⟩ | ⟨hf, hd⟩ | ⟨hf, hd⟩ | ⟨hf, hd⟩ | ⟨hf, hd⟩ | ⟨hf, hd⟩ | ⟨hf, hd⟩ | ⟨hf, hd⟩ |
    ⟨hf, hd⟩ | ⟨hf, hd⟩ | ⟨hf, hd⟩ | ⟨hf, hd⟩ | ⟨hf, hd⟩ | ⟨hf, hd⟩ | ⟨hf, hd⟩ | ⟨hf, hd⟩ <;>
    simp [hd, hf, decodeGroup0_none, decodeGroup8_none, decodeGroupE_none, decodeGroupF_none]

/-- Settles O5: each word is evaluated. -/
theorem sampleWordsDecode : Obligations.SampleWordsDecode := by
  unfold Obligations.SampleWordsDecode
  decide

end Sys2Proof

namespace Sys2Proof.Machine

/-! ### The STEP from what it decodes (R84, R86, R87) -/

section
variable {s : State} {op : Word}

/-- The fetch is the word whose value the two bytes at pc give. -/
theorem State.fetch_of_toNat (hpc : s.pc.toNat ≤ 0xFFE)
    (hop : op.toNat = 256 * (s.byteAt s.pc.toNat).toNat + (s.byteAt (s.pc.toNat + 1)).toNat) : s.fetch = some op := by
  obtain ⟨w, hw, hval⟩ := State.fetch_word hpc
  rw [hw, BitVec.eq_of_toNat_eq (hval.trans hop.symm)]

/-- A pending STEP whose word decodes. -/
theorem step_of_decode {i : Instr} {b : Byte} {rest : List Operation} (hf : s.fetch = some op) (hi : decode op = some i)
    (hp : s.pending = .step b :: rest) : step s = exec i ((s.setPending rest).setRandByte b).advance := by
  rw [step, performNext_cons hp]
  exact opStep_of_decode b (s := s.setPending rest) hf hi

/-- A STEP with nothing pending takes a free byte (log 1, log 2). -/
theorem step_of_decode_free {i : Instr} (hf : s.fetch = some op) (hi : decode op = some i) (hp : s.pending = []) :
    step s = exec i ((s.setDraws (s.draws + 1)).setRandByte (Config.randByte s.draws)).advance := by
  rw [step, performNext_nil hp]
  exact opStep_of_decode _ (s := s.setDraws (s.draws + 1)) hf hi

/-- A pending STEP whose word is no instruction. -/
theorem step_of_decode_none {b : Byte} {rest : List Operation} (hf : s.fetch = some op) (hi : decode op = none)
    (hp : s.pending = .step b :: rest) :
    step s = raiseAt .unknownOpcode s.pc op ((s.setPending rest).setRandByte b).advance := by
  rw [step, performNext_cons hp]
  exact opStep_of_decode_none b (s := s.setPending rest) hf hi

end

/-- Settles O7: a STEP runs what it fetches. -/
theorem stepRunsDecodedInstruction : Obligations.StepRunsDecodedInstruction := by
  unfold Obligations.StepRunsDecodedInstruction
  intro s op i hpc hop hi
  have hf := State.fetch_of_toNat hpc hop
  exact ⟨fun b rest hp => step_of_decode hf hi hp, step_of_decode_free hf hi⟩

/-- Settles O8: the raise after the advance. -/
theorem unknownOpcodeStep : Obligations.UnknownOpcodeStep := by
  unfold Obligations.UnknownOpcodeStep
  intro s op b rest hpc hop hi hp
  refine ⟨_, step_of_decode_none (State.fetch_of_toNat hpc hop) hi hp, rfl, rfl, rfl, rfl, ?_⟩
  simp [sameExcept_iff]

/-- Settles O12: a STEP that runs no CXNN is blind to its latched byte, which its fetch and its faults do not read either. -/
theorem randByteOnlyForRnd : Obligations.RandByteOnlyForRnd := by
  unfold Obligations.RandByteOnlyForRnd
  intro s t b b' h hrnd
  rw [perform] at h ⊢
  cases hf : s.fetch with
  | none =>
    rw [opStep_of_fetch_none b hf, raiseAt_next] at h
    rw [opStep_of_fetch_none b' hf, raiseAt_next, ← h]
    rfl
  | some op =>
    cases hi : decode op with
    | none =>
      rw [opStep_of_decode_none b hf hi, raiseAt_next] at h
      rw [opStep_of_decode_none b' hf hi, raiseAt_next, ← h]
      rfl
    | some i =>
      have hne : ∀ x nn, i ≠ .rnd x nn := fun x nn hx => hrnd op x nn hf (hx ▸ hi)
      rw [opStep_of_decode b hf hi] at h
      rw [opStep_of_decode b' hf hi]
      exact exec_blind (blind_setRandByte b') i (fun _ _ _ _ => rfl) (fun x nn hx => absurd hx (hne x nn)) h

end Sys2Proof.Machine

/-! Proofs: control transfer (40_control.md): jumps, skips, the call, the return, and runs of calls and returns. -/

namespace Sys2Proof.Machine

/-! ### Frames put together -/

section
variable {c c' : List Part} {s t u : State}

theorem SameExcept.mono (hc : c ⊆ c') (h : SameExcept c s t) : SameExcept c' s t := fun q hq => h q fun hm => hq (hc hm)

theorem Part.same_refl (q : Part) (s : State) : q.same s s := by
  cases q
  case mem | v => exact fun _ => rfl
  all_goals exact rfl

theorem Part.same_trans {q : Part} (h : q.same s t) (h' : q.same t u) : q.same s u := by
  cases q
  case mem | v => exact fun a => (h' a).trans (h a)
  all_goals exact Eq.trans h' h

theorem SameExcept.trans (h : SameExcept c s t) (h' : SameExcept c t u) : SameExcept c s u :=
  fun q hq => Part.same_trans (h q hq) (h' q hq)

/-- The advance writes `pc` alone. -/
theorem sameExcept_advance (hpc : Part.pc ∈ c) (s : State) : SameExcept c s s.advance := by
  rw [sameExcept_iff]
  simp [hpc]

/-- A run of instructions, each with its STEP's advance, writes what its instructions write. -/
theorem execAll_frame {l : List Instr} (hpc : Part.pc ∈ c) (hc : ∀ i ∈ l, .stepResult :: i.writes ⊆ c)
    (h : execAll l s = .next t) : SameExcept c s t := by
  induction l generalizing s with
  | nil =>
    cases h
    exact fun q _ => q.same_refl t
  | cons i l ih =>
    obtain ⟨u, e, hu, hwrites⟩ := exec_writes i s.advance
    rw [execAll_cons hu] at h
    have hi := (hwrites.setStepResult e).mono (hc i List.mem_cons_self)
    have hl := ih (fun j hj => hc j (List.mem_cons_of_mem i hj)) h
    exact (sameExcept_advance hpc s).trans (hi.trans hl)

end

/-! ### Jumps and skips (R102, R104-R108) -/

section
variable (s : State)

/-- An instruction that writes `pc` and completes writes nothing else. -/
theorem sameExcept_setPc (a : Word) (e : StepResult) :
    SameExcept [.pc, .stepResult] s ((s.setPc a).setStepResult e) := by
  simp [sameExcept_iff]

/-- A skip with the test `c` adds 2 to `pc` where `P` holds, keeps `pc` where `Q` holds, and writes nothing else (R100). -/
theorem done_skipIf {c : Bool} {P Q : Prop} (htrue : P → c = true) (hfalse : Q → c = false) :
    ∃ t, done (s.skipIf c) = .next t ∧ t.stepResult = .ok ∧ SameExcept [.pc, .stepResult] s t ∧
      (P → t.pc = s.pc + 2) ∧ (Q → t.pc = s.pc) := by
  rw [State.skipIf_eq]
  exact ⟨_, rfl, rfl, sameExcept_setPc s _ _, fun hP => if_pos (htrue hP), fun hQ => if_neg (by simp [hfalse hQ])⟩

/-- An instruction that skips on equal bytes. -/
theorem done_skipIf_eq (a b : Byte) :
    ∃ t, done (s.skipIf (a == b)) = .next t ∧ t.stepResult = .ok ∧ SameExcept [.pc, .stepResult] s t ∧
      (a.toNat = b.toNat → t.pc = s.pc + 2) ∧ (a.toNat ≠ b.toNat → t.pc = s.pc) :=
  done_skipIf s (by simp [BitVec.toNat_inj]) (by simp [BitVec.toNat_inj])

/-- An instruction that skips on different bytes. -/
theorem done_skipIf_ne (a b : Byte) :
    ∃ t, done (s.skipIf (a != b)) = .next t ∧ t.stepResult = .ok ∧ SameExcept [.pc, .stepResult] s t ∧
      (a.toNat ≠ b.toNat → t.pc = s.pc + 2) ∧ (a.toNat = b.toNat → t.pc = s.pc) :=
  done_skipIf s (by simp [BitVec.toNat_inj]) (by simp [BitVec.toNat_inj])

end

/-- Settles O23: the value of each target. -/
theorem jumpTargets : Obligations.JumpTargets := by
  unfold Obligations.JumpTargets
  intro s nnn
  exact ⟨⟨_, rfl, rfl, toNat_zextAddr nnn, sameExcept_setPc s _ _⟩,
    ⟨_, rfl, rfl, toNat_offsetAddr nnn (s.reg 0), sameExcept_setPc s _ _⟩⟩

/-- Settles O25: the two skips, on Vx and the byte. -/
theorem skipsOnByte : Obligations.SkipsOnByte := by
  unfold Obligations.SkipsOnByte
  exact fun s x nn => ⟨done_skipIf_eq s (s.reg x) nn, done_skipIf_ne s (s.reg x) nn⟩

/-- Settles O26: the two skips, on Vx and Vy. -/
theorem skipsOnRegisters : Obligations.SkipsOnRegisters := by
  unfold Obligations.SkipsOnRegisters
  exact fun s x y => ⟨done_skipIf_eq s (s.reg x) (s.reg y), done_skipIf_ne s (s.reg x) (s.reg y)⟩

/-! ### The call and the return (R101, R103) -/

/-- An instruction that writes `pc` and the stack and completes writes nothing else. -/
theorem sameExcept_setStack_setPc (s : State) (l : List Word) (a : Word) (e : StepResult) :
    SameExcept [.pc, .stack, .stepResult] s (((s.setStack l).setPc a).setStepResult e) := by
  simp [sameExcept_iff]

/-- A fault writes `step_result` alone. -/
theorem sameExcept_setStepResult (s : State) (e : StepResult) : SameExcept [.stepResult] s (s.setStepResult e) := by
  simp [sameExcept_iff]

/-- Settles O22: the return by the stack. -/
theorem retPopsReturnAddress : Obligations.RetPopsReturnAddress := by
  unfold Obligations.RetPopsReturnAddress
  intro s
  constructor
  case left =>
    intro l a hstack
    exact ⟨_, execRet_concat hstack, rfl, rfl, rfl, sameExcept_setStack_setPc s _ _ _⟩
  case right =>
    intro hempty
    exact ⟨_, execRet_nil hempty, rfl, sameExcept_setStepResult s _⟩

/-- Settles O24: the call by the depth of the stack. -/
theorem callPushesReturnAddress : Obligations.CallPushesReturnAddress := by
  unfold Obligations.CallPushesReturnAddress
  intro s nnn
  constructor
  case left =>
    intro hroom
    exact ⟨_, execCall_fits hroom nnn, rfl, toNat_zextAddr nnn, rfl, sameExcept_setStack_setPc s _ _ _⟩
  case right =>
    intro hfull
    exact ⟨_, execCall_full (Nat.le_of_eq hfull.symm) nnn, rfl, sameExcept_setStepResult s _⟩

/-! ### Runs of calls and returns (R109) -/

/-- The state a STEP's call leaves on a stack that has room: the pushed address is the one behind the call. -/
def State.called (s : State) (nnn : Addr) : State :=
  ((s.advance.setStack (s.stack ++ [s.pc + 2])).setPc (zextAddr nnn)).setStepResult .ok

@[simp] theorem State.called_stack (s : State) (nnn : Addr) : (s.called nnn).stack = s.stack ++ [s.pc + 2] := rfl

/-- A run that begins with a call on a stack that has room. -/
theorem execAll_call_cons {s : State} (hroom : s.stack.length < 16) (nnn : Addr) (l : List Instr) :
    execAll (.call nnn :: l) s = execAll l (s.called nnn) := by
  have hcall : exec (.call nnn) s.advance = .next (s.called nnn) := execCall_fits (s := s.advance) hroom nnn
  exact execAll_cons hcall l

/-- A STEP's return on a stack that is not empty. -/
theorem execAll_ret_concat {s : State} {l : List Word} {a : Word} (hstack : s.stack = l ++ [a]) :
    execAll [.ret] s = .next (((s.advance.setStack l).setPc a).setStepResult .ok) := by
  have hret : exec .ret s.advance = _ := execRet_concat (s := s.advance) hstack
  exact execAll_cons hret []

/-- A STEP's return on an empty stack. -/
theorem execAll_ret_nil {s : State} (hempty : s.stack = []) :
    execAll [.ret] s = .next (s.advance.setStepResult (.fault .stackUnderflow s.pc 0x00EE)) := by
  have hret : exec .ret s.advance = _ := execRet_nil (s := s.advance) hempty
  rw [execAll_cons hret, State.advance_pc, BitVec.add_sub_cancel]
  rfl

/-- Calls that fit the stack each add one entry. -/
theorem execAll_calls (l : List Addr) {s : State} (hfit : s.stack.length + l.length ≤ 16) :
    ∃ t, execAll (l.map .call) s = .next t ∧ t.stack.length = s.stack.length + l.length := by
  induction l generalizing s with
  | nil => exact ⟨s, rfl, rfl⟩
  | cons a l ih =>
    rw [List.length_cons] at hfit
    have hdepth : (s.called a).stack.length = s.stack.length + 1 := by simp
    obtain ⟨t, hrun, hlen⟩ := ih (s := s.called a) (by omega)
    refine ⟨t, ?_, by rw [hlen, hdepth, List.length_cons]; omega⟩
    rw [List.map_cons, execAll_call_cons (by omega), hrun]

/-- Calls that fit the stack and then as many returns bring the stack back, and `pc` to behind the first call: the calls after
the first are undone by all returns but the last, which pops what the first call pushed. -/
theorem execAll_calls_rets (l : List Addr) {s : State} (hfit : s.stack.length + l.length ≤ 16) :
    ∃ t, execAll (l.map .call ++ List.replicate l.length .ret) s = .next t ∧ t.stack = s.stack ∧
      (l.length = 0 → t.pc = s.pc) ∧ (0 < l.length → t.pc = s.pc + 2) := by
  induction l generalizing s with
  | nil => exact ⟨s, rfl, rfl, fun _ => rfl, fun h => absurd h (Nat.lt_irrefl 0)⟩
  | cons a l ih =>
    rw [List.length_cons] at hfit
    have hdepth : (s.called a).stack.length = s.stack.length + 1 := by simp
    obtain ⟨t, hrun, hstack, -⟩ := ih (s := s.called a) (by omega)
    refine ⟨((t.advance.setStack s.stack).setPc (s.pc + 2)).setStepResult .ok, ?_, rfl,
      fun h => absurd h (Nat.succ_ne_zero _), fun _ => rfl⟩
    calc execAll ((a :: l).map .call ++ List.replicate (l.length + 1) .ret) s
      _ = execAll (.call a :: ((l.map .call ++ List.replicate l.length .ret) ++ [.ret])) s := by
        rw [List.replicate_succ', List.map_cons, List.cons_append, List.append_assoc]
      _ = execAll [.ret] t := by rw [execAll_call_cons (by omega), execAll_append hrun]
      _ = .next (((t.advance.setStack s.stack).setPc (s.pc + 2)).setStepResult .ok) := execAll_ret_concat hstack

/-- A run of calls and returns writes `pc`, the stack and `step_result` at most. -/
theorem execAll_calls_rets_frame {l : List Addr} {k : Nat} {s t : State}
    (h : execAll (l.map .call ++ List.replicate k .ret) s = .next t) : SameExcept [.pc, .stack, .stepResult] s t := by
  refine execAll_frame (by decide) (fun i hi => ?_) h
  rcases List.mem_append.mp hi with hcall | hret
  · obtain ⟨a, -, rfl⟩ := List.mem_map.mp hcall
    simp [Instr.writes]
  · obtain ⟨-, rfl⟩ := List.mem_replicate.mp hret
    simp [Instr.writes]

/-- Calls of which the last `k` return: the stack is the one the other calls leave, `pc` is behind the first of the `k`. -/
theorem execAll_last_calls_return {targets : List Addr} {s : State} {k : Nat}
    (hfit : s.stack.length + targets.length ≤ 16) (hk : k ≤ targets.length) :
    ∃ t u, execAll (targets.map .call ++ List.replicate k .ret) s = .next t ∧
      execAll ((targets.take (targets.length - k)).map .call) s = .next u ∧
      t.stack = u.stack ∧ (k = 0 → t.pc = u.pc) ∧ (0 < k → t.pc = u.pc + 2) := by
  generalize hkept : targets.take (targets.length - k) = kept
  generalize hback : targets.drop (targets.length - k) = back
  have hsplit : targets = kept ++ back := by rw [← hkept, ← hback, List.take_append_drop]
  have hlen : back.length = k := by rw [← hback, List.length_drop]; omega
  have hsum : targets.length = kept.length + back.length := by rw [hsplit, List.length_append]
  obtain ⟨u, hkeptRun, hdepth⟩ := execAll_calls kept (s := s) (by omega)
  obtain ⟨t, hbackRun, hstack, hpc⟩ := execAll_calls_rets back (s := u) (by omega)
  rw [hlen] at hbackRun hpc
  refine ⟨t, u, ?_, hkeptRun, hstack, hpc⟩
  rw [hsplit, List.map_append, List.append_assoc, execAll_append hkeptRun, hbackRun]

/-- Settles O28: of the calls the last `k` are undone by the returns; with all undone the stack is the one from before, and on
an empty one the next return underflows. -/
theorem callsReturnInReverse : Obligations.CallsReturnInReverse := by
  unfold Obligations.CallsReturnInReverse
  intro targets s hfit
  constructor
  case left =>
    intro k hk
    obtain ⟨t, u, hrun, hkept, hstack, hzero, hpos⟩ := execAll_last_calls_return hfit hk
    exact ⟨t, u, hrun, hkept, hstack, hzero, hpos, execAll_calls_rets_frame hrun⟩
  case right =>
    intro hempty
    obtain ⟨t, hrun, hstack, -⟩ := execAll_calls_rets targets hfit
    rw [hempty] at hstack
    refine ⟨t, t.advance.setStepResult (.fault .stackUnderflow t.pc 0x00EE), hrun, ?_, rfl, rfl, hstack,
      sameExcept_setPc t _ _⟩
    rw [List.replicate_succ', ← List.append_assoc, execAll_append hrun, execAll_ret_nil hstack]

end Sys2Proof.Machine

/-! Proofs: register loads, arithmetic, logic and shifts (41_alu.md): the result in Vx, the flag in VF, and what stays. -/

namespace Sys2Proof.Machine

/-! ### What a completed register write leaves alone -/

section
variable (s : State) (x : Reg) (b : Byte)

/-- An instruction that writes Vx alone and completes. -/
theorem setReg_frame (e : StepResult) : RegsSameExcept (· = x) s ((s.setReg x b).setStepResult e) ∧
    SameExcept [.v, .stepResult] s ((s.setReg x b).setStepResult e) := by
  refine ⟨regsSameExcept_setReg s x b, ?_⟩
  simp [sameExcept_iff]

/-- An instruction that writes Vx and its flag and completes. -/
theorem setRegFlag_frame (c : Bool) (e : StepResult) :
    RegsSameExcept (fun r => r = x ∨ r = VF) s ((s.setRegFlag x b c).setStepResult e) ∧
      SameExcept [.v, .stepResult] s ((s.setRegFlag x b c).setStepResult e) := by
  refine ⟨regsSameExcept_setRegFlag s x b c, ?_⟩
  simp [sameExcept_iff]

end

/-! ### The result and the flag (10_state.md R22, R23) -/

section
variable {p : Config.Params} {x : Reg} (src : Config.ShiftSource)

@[simp] theorem State.reg_VF_setRegFlag (s : State p) (x : Reg) (b : Byte) (c : Bool) :
    (s.setRegFlag x b c).reg VF = flagByte c := by
  rw [State.reg_setRegFlag, if_pos rfl]

@[simp] theorem State.reg_setRegFlag_dest (s : State p) (b : Byte) (c : Bool) (hx : x ≠ VF) :
    (s.setRegFlag x b c).reg x = b := by
  rw [State.reg_setRegFlag, if_neg hx, if_pos rfl]

theorem toNat_flagByte_carry (a b : Byte) : (flagByte (carry a b)).toNat = if 255 < a.toNat + b.toNat then 1 else 0 := by
  simp [toNat_flagByte, carry]

theorem toNat_flagByte_noBorrow (a b : Byte) : (flagByte (noBorrow a b)).toNat = if b.toNat ≤ a.toNat then 1 else 0 := by
  simp [toNat_flagByte, noBorrow]

/-- The bit a left shift shifts out is the top bit of what is shifted. -/
theorem toNat_flagByte_shiftOutLeft (v : Byte) : (flagByte (shiftOutLeft v)).toNat = v.toNat / 128 := by
  have hbit : shiftOutLeft v = decide (128 ≤ v.toNat) := BitVec.msb_eq_decide v
  have hv := v.isLt
  rw [toNat_flagByte, hbit]
  simp only [decide_eq_true_iff]
  split <;> omega

/-- The difference of bytes is the exact difference modulo 256 (R138, R140). -/
theorem toNat_sub_emod (a b : Byte) : ((a - b).toNat : Int) = ((a.toNat : Int) - b.toNat) % 256 := by
  rw [BitVec.toNat_sub]
  omega

/-- 8XY6 halves its operand (R139). -/
theorem toNat_reg_shiftRight (y : Reg) (s : State p) (hx : x ≠ VF) :
    ((shiftRight src x y s).reg x).toNat = (shiftOperand src x y s).toNat / 2 := by
  rw [shiftRight, State.reg_setRegFlag_dest _ _ _ hx, BitVec.toNat_ushiftRight, Nat.shiftRight_eq_div_pow, Nat.pow_one]

/-- 8XYE doubles its operand modulo 256 (R141). -/
theorem toNat_reg_shiftLeft (y : Reg) (s : State p) (hx : x ≠ VF) :
    ((shiftLeft src x y s).reg x).toNat = (shiftOperand src x y s).toNat * 2 % 256 := by
  rw [shiftLeft, State.reg_setRegFlag_dest _ _ _ hx, BitVec.toNat_shiftLeft, Nat.shiftLeft_eq, Nat.pow_one]

/-- 8XYE puts the top bit of its operand into VF (R141). -/
theorem reg_VF_shiftLeft (x y : Reg) (s : State p) :
    ((shiftLeft src x y s).reg VF).toNat = (shiftOperand src x y s).toNat / 128 := by
  rw [shiftLeft, State.reg_VF_setRegFlag, toNat_flagByte_shiftOutLeft]

end

/-! ### The statements -/

/-- Settles O29: the value written to Vx is the byte, Vy, or the masked random byte. -/
theorem registerLoads : Obligations.RegisterLoads := by
  unfold Obligations.RegisterLoads
  intro s x y nn
  refine ⟨⟨_, rfl, rfl, ?byte, setReg_frame s x _ _⟩, ⟨_, rfl, rfl, ?register, setReg_frame s x _ _⟩,
    ⟨_, rfl, rfl, fun k _ => ?random, setReg_frame s x _ _⟩⟩
  case byte => exact s.reg_setReg_same x nn
  case register => exact s.reg_setReg_same x (s.reg y)
  case random => rw [State.reg_setStepResult, State.reg_setReg_same, BitVec.getLsbD_and]

/-- Settles O30: the sum of two bytes is taken modulo 256. -/
theorem addByteWithoutFlag : Obligations.AddByteWithoutFlag := by
  unfold Obligations.AddByteWithoutFlag
  intro s x nn
  refine ⟨_, rfl, rfl, ?_, setReg_frame s x _ _⟩
  rw [State.reg_setStepResult, State.reg_setReg_same, BitVec.toNat_add]

/-- Settles O31: each bit of Vx is the operation on that bit of the operands. -/
theorem bitwiseOperations : Obligations.BitwiseOperations := by
  unfold Obligations.BitwiseOperations
  intro s x y
  refine ⟨⟨_, rfl, rfl, fun k _ => ?or, setReg_frame s x _ _⟩, ⟨_, rfl, rfl, fun k _ => ?and, setReg_frame s x _ _⟩,
    ⟨_, rfl, rfl, fun k _ => ?xor, setReg_frame s x _ _⟩⟩
  case or => rw [State.reg_setStepResult, State.reg_setReg_same, BitVec.getLsbD_or]
  case and => rw [State.reg_setStepResult, State.reg_setReg_same, BitVec.getLsbD_and]
  case xor => rw [State.reg_setStepResult, State.reg_setReg_same, BitVec.getLsbD_xor]

/-- Settles O32: the sum goes to Vx and then the carry to VF, which keeps it. -/
theorem addWithCarry : Obligations.AddWithCarry := by
  unfold Obligations.AddWithCarry
  intro s x y
  refine ⟨_, rfl, rfl, fun hx => ?sum, ?carry, setRegFlag_frame s x _ _ _⟩
  case sum => rw [State.reg_setStepResult, State.reg_setRegFlag_dest _ _ _ hx, BitVec.toNat_add]
  case carry => rw [State.reg_setStepResult, State.reg_VF_setRegFlag, toNat_flagByte_carry]

/-- A subtraction of bytes with the absence of a borrow as its flag, for either order of the operands. -/
theorem done_setRegFlag_sub (s : State) (x : Reg) (a b : Byte) :
    ∃ t, done (s.setRegFlag x (a - b) (noBorrow a b)) = .next t ∧ t.stepResult = .ok ∧
      (x ≠ VF → ((t.reg x).toNat : Int) = ((a.toNat : Int) - b.toNat) % 256) ∧
      (t.reg VF).toNat = (if b.toNat ≤ a.toNat then 1 else 0) ∧
      RegsSameExcept (fun r => r = x ∨ r = VF) s t ∧ SameExcept [.v, .stepResult] s t := by
  refine ⟨_, rfl, rfl, fun hx => ?difference, ?flag, setRegFlag_frame s x _ _ _⟩
  case difference => rw [State.reg_setStepResult, State.reg_setRegFlag_dest _ _ _ hx, toNat_sub_emod]
  case flag => rw [State.reg_setStepResult, State.reg_VF_setRegFlag, toNat_flagByte_noBorrow]

/-- Settles O33: the subtraction in its two orders. -/
theorem subtractWithoutBorrow : Obligations.SubtractWithoutBorrow := by
  unfold Obligations.SubtractWithoutBorrow
  exact fun s x y => ⟨done_setRegFlag_sub s x (s.reg x) (s.reg y), done_setRegFlag_sub s x (s.reg y) (s.reg x)⟩

/-- Settles O34: the two shifts of the operand `SHIFT_SOURCE` selects, Vy as `exec` runs them and Vx under VX. -/
theorem shiftsByOne : Obligations.ShiftsByOne := by
  unfold Obligations.ShiftsByOne
  intro s x y
  exact ⟨rfl,
    ⟨_, rfl, rfl, toNat_reg_shiftRight .vy y s, reg_VF_shiftRight .vy x y s, setRegFlag_frame s x _ _ _⟩,
    ⟨_, rfl, rfl, toNat_reg_shiftLeft .vy y s, reg_VF_shiftLeft .vy x y s, setRegFlag_frame s x _ _ _⟩,
    fun hx => ⟨toNat_reg_shiftRight .vx y s hx, toNat_reg_shiftLeft .vx y s hx⟩,
    reg_VF_shiftRight .vx x y s, reg_VF_shiftLeft .vx x y s⟩

end Sys2Proof.Machine

/-! Proofs: the index register and the transfers between registers and memory (42_index_memory.md): where a transfer ends, the
bytes and registers it makes and those it leaves, and a load that reads a store back. -/

namespace Sys2Proof.Machine

/-! ### How a transfer ends (R170, 60_exceptions.md R232) -/

/-- Every instruction answers a next state under this hardware's configuration. -/
theorem exec_answers (i : Instr) (s : State) : ∃ t, exec i s = .next t :=
  execUnder_eq_exec i s ▸ execUnder_answers i s

/-- A transfer whose last access is at `I + k` completes when that is an address of memory, else it faults at the first of its
addresses above 0xFFF. -/
theorem stepResult_of_endsAtMemSize {i : Instr} {k : Nat} {s t : State} (h : EndsAtMemSize i (k + 1) s)
    (hexec : exec i s = .next t) :
    (s.effAddr k ≤ 0xFFF → t.stepResult = .ok) ∧
    (0xFFF < s.effAddr k →
      t.stepResult = .fault (.memoryBoundsError (max s.I.toNat 0x1000)) (s.pc - 2) (encode i)) := by
  obtain ⟨hok, hfault⟩ := h
  simp only [execUnder_eq_exec, hexec, Host.Outcome.next.injEq, exists_eq_left'] at hok hfault
  exact ⟨fun hfits => hok (Nat.succ_le_succ hfits), fun hpast => hfault (Nat.succ_lt_succ hpast)⟩

/-- A transfer that completed had its last access in memory. -/
theorem fits_of_endsAtMemSize {i : Instr} {k : Nat} {s t : State} (h : EndsAtMemSize i (k + 1) s)
    (hexec : exec i s = .next t) (hok : t.stepResult = .ok) : s.effAddr k ≤ 0xFFF := by
  refine Nat.le_of_not_lt fun hpast => ?_
  have hfault := (stepResult_of_endsAtMemSize h hexec).2 hpast
  cases hok.symm.trans hfault

/-! ### The stores (R173, R175) -/

/-- A run of stores at consecutive addresses, and so the instruction it is of, completed or faulted, writes no byte but those up
to 0xFFF it names. -/
theorem bytesSameExcept_of_finish_storeAll {i : Instr} {l : List (Nat × Byte)} {s t : State} {start : Nat}
    (hl : l.map (·.1) = List.range' start l.length) {P : Nat → Prop} (hP : ∀ q ∈ l, q.1 ≤ 0xFFF → P q.1)
    (h : finish i (storeAll l s) = .next t) : BytesSameExcept P s t := by
  have hstores : BytesSameExcept P s (storeAll l s).1 := by
    intro a ha
    refine storeAll_other fun hmade => ha ?_
    obtain ⟨q, hq, rfl⟩ := List.mem_map.mp hmade
    obtain ⟨hmem, hbound⟩ := (mem_takeWhile_below Prod.fst l start hl q).mp hq
    exact hP q hmem hbound
  exact (EndsIn.finish hstores i).of_next h fun _ _ hu => hu

/-- Settles O38: the digits are stored at consecutive addresses from `I`, so those up to 0xFFF are kept and the first above it is
reported. -/
theorem bcdStoresDigits : Obligations.BcdStoresDigits := by
  unfold Obligations.BcdStoresDigits
  intro s x hw
  obtain ⟨t, hexec⟩ := exec_answers (.ldB x) s
  obtain ⟨hok, hfault⟩ := stepResult_of_endsAtMemSize (ldB_endsAtMemSize x s) hexec
  refine ⟨t, hexec, hok, hfault, fun ha => ?hundreds, fun ha => ?tens, fun ha => ?ones, ?bytes, ?frame⟩
  case hundreds =>
    rw [byteAt_of_exec_ldB (v := bcdHundreds (s.reg x)) hw hexec (by simp [bcdStores]) ha, toNat_bcdHundreds]
  case tens =>
    rw [byteAt_of_exec_ldB (v := bcdTens (s.reg x)) hw hexec (by simp [bcdStores]) ha, toNat_bcdTens]
  case ones =>
    rw [byteAt_of_exec_ldB (v := bcdOnes (s.reg x)) hw hexec (by simp [bcdStores]) ha, toNat_bcdOnes]
  case bytes =>
    refine bytesSameExcept_of_finish_storeAll (bcdStores_addrs x s) (fun q hq hle => ?_) hexec
    simp only [bcdStores, List.mem_cons, List.not_mem_nil, or_false] at hq
    obtain rfl | rfl | rfl := hq
    · exact ⟨0, by decide, rfl, hle⟩
    · exact ⟨1, by decide, rfl, hle⟩
    · exact ⟨2, by decide, rfl, hle⟩
  case frame => exact (instructionWrites _ s t hexec).1.mono (by simp [Instr.writes])

/-- Settles O39: the registers are stored at consecutive addresses from `I`. -/
theorem storeRegisters : Obligations.StoreRegisters := by
  unfold Obligations.StoreRegisters
  intro s x hw
  obtain ⟨t, hexec⟩ := exec_answers (.stRegs x) s
  obtain ⟨hok, hfault⟩ := stepResult_of_endsAtMemSize (stRegs_endsAtMemSize x s) hexec
  refine ⟨t, hexec, hok, hfault, fun k hk ha => byteAt_of_exec_stRegs hw hexec hk ha, ?bytes, ?frame⟩
  case bytes =>
    refine bytesSameExcept_of_finish_storeAll (regStores_addrs x s) (fun q hq hle => ?_) hexec
    obtain ⟨k, hk, rfl⟩ := List.mem_map.mp hq
    exact ⟨k, mem_regsUpTo.mp hk, rfl, hle⟩
  case frame => exact (instructionWrites _ s t hexec).1.mono (by simp [Instr.writes])

/-! ### The loads (R176) -/

/-- The loads FX65 makes are those from addresses up to 0xFFF. -/
theorem mem_madeLoads_regLoads {x : Reg} {s : State} {q : Nat × Reg} :
    q ∈ madeLoads (regLoads x s) ↔ q.2 ≤ x ∧ q.1 = s.effAddr q.2.val ∧ q.1 ≤ 0xFFF := by
  obtain ⟨a, k⟩ := q
  rw [madeLoads, mem_takeWhile_below Prod.fst _ _ (regLoads_addrs x s)]
  simp [regLoads, mem_regsUpTo, eq_comm, and_assoc]

/-- FX65 leaves the byte at `I + k` in Vk. -/
theorem reg_of_exec_ldRegs {s t : State} {x k : Reg} (h : exec (.ldRegs x) s = .next t) (hk : k ≤ x)
    (ha : s.effAddr k.val ≤ 0xFFF) : t.reg k = s.byteAt (s.effAddr k.val) := by
  have hnodup : ((regLoads x s).map (·.2)).Nodup := (regLoads_regs x s).symm ▸ regsUpTo_nodup x
  have hmade : (s.effAddr k.val, k) ∈ madeLoads (regLoads x s) := mem_madeLoads_regLoads.mpr ⟨hk, rfl, ha⟩
  have hends : EndsIn (fun u => u.reg k = s.byteAt (s.effAddr k.val)) (exec (.ldRegs x) s) :=
    .finish (loadAll_made hnodup hmade) _
  exact hends.of_next h fun _ _ hu => hu

/-- FX65 leaves every register it does not reach. -/
theorem regsSameExcept_of_exec_ldRegs {s t : State} {x : Reg} (h : exec (.ldRegs x) s = .next t) :
    RegsSameExcept (fun k => k ≤ x ∧ s.effAddr k.val ≤ 0xFFF) s t := by
  have hloads : RegsSameExcept (fun k => k ≤ x ∧ s.effAddr k.val ≤ 0xFFF) s (loadAll (regLoads x s) s).1 := by
    intro k hk
    refine loadAll_other fun hmade => hk ?_
    obtain ⟨q, hq, rfl⟩ := List.mem_map.mp hmade
    obtain ⟨hle, haddr, hbound⟩ := mem_madeLoads_regLoads.mp hq
    exact ⟨hle, haddr ▸ hbound⟩
  have hends : EndsIn _ (exec (.ldRegs x) s) := .finish hloads _
  exact hends.of_next h fun _ _ hu => hu

/-- Settles O40: the registers are loaded from consecutive addresses from `I`. -/
theorem loadRegisters : Obligations.LoadRegisters := by
  unfold Obligations.LoadRegisters
  intro s x
  obtain ⟨t, hexec⟩ := exec_answers (.ldRegs x) s
  obtain ⟨hok, hfault⟩ := stepResult_of_endsAtMemSize (ldRegs_endsAtMemSize x s) hexec
  exact ⟨t, hexec, hok, hfault, fun k hk ha => reg_of_exec_ldRegs hexec hk ha, regsSameExcept_of_exec_ldRegs hexec,
    (instructionWrites _ s t hexec).1.mono (by simp [Instr.writes])⟩

/-! ### A load after a store (R177) -/

/-- FX65 after a transfer that kept `I` loads the bytes the transfer left at `I`, ..., `I + x`. -/
theorem ldRegs_reads_back {i : Instr} {s t u : State} {x : Reg} (hi : .I ∉ i.writes) (hexec : exec i s = .next t)
    (hend : EndsAtMemSize i (x.val + 1) s) (hok : t.stepResult = .ok) (hI : u.I = t.I)
    (hbytes : ∀ a, s.I.toNat ≤ a → a ≤ s.I.toNat + x.val → u.byteAt a = t.byteAt a) :
    ∃ w, exec (.ldRegs x) u = .next w ∧ w.stepResult = .ok ∧
      ∀ k : Reg, k ≤ x → s.effAddr k.val ≤ 0xFFF ∧ w.reg k = t.byteAt (s.effAddr k.val) := by
  have htI : t.I = s.I := (instructionWrites i s t hexec).1 .I (by simp [hi])
  have haddr (k : Nat) : u.effAddr k = s.effAddr k := by rw [State.effAddr, hI, htI, State.effAddr]
  have hfits := fits_of_endsAtMemSize hend hexec hok
  obtain ⟨w, hw⟩ := exec_answers (.ldRegs x) u
  refine ⟨w, hw, (stepResult_of_endsAtMemSize (ldRegs_endsAtMemSize x u) hw).1 (by rwa [haddr]), fun k hk => ?_⟩
  have hle : s.effAddr k.val ≤ s.effAddr x.val := Nat.add_le_add_left hk _
  have hfitsk : s.effAddr k.val ≤ 0xFFF := Nat.le_trans hle hfits
  refine ⟨hfitsk, ?_⟩
  rw [reg_of_exec_ldRegs hw hk (by rwa [haddr]), haddr]
  exact hbytes _ (Nat.le_add_right _ _) hle

/-- Settles O41: the load reads back the bytes that FX55 and FX33 left. -/
theorem storeThenLoadRestores : Obligations.StoreThenLoadRestores := by
  unfold Obligations.StoreThenLoadRestores
  intro s t u x hw hI
  constructor
  case left =>
    intro hexec hok hbytes
    obtain ⟨w, hload, hwok, hregs⟩ :=
      ldRegs_reads_back (by simp [Instr.writes]) hexec (stRegs_endsAtMemSize x s) hok hI hbytes
    refine ⟨w, hload, hwok, fun k hk => ?_⟩
    obtain ⟨ha, hreg⟩ := hregs k hk
    rw [hreg, byteAt_of_exec_stRegs hw hexec hk ha]
  case right =>
    intro hexec hok hbytes
    obtain ⟨w, hload, hwok, hregs⟩ :=
      ldRegs_reads_back (x := 2) (by simp [Instr.writes]) hexec (ldB_endsAtMemSize x s) hok hI hbytes
    have hdigit {k : Reg} {v : Byte} (hk : k ≤ 2) (hmem : (s.effAddr k.val, v) ∈ bcdStores x s) : w.reg k = v := by
      obtain ⟨ha, hreg⟩ := hregs k hk
      rw [hreg, byteAt_of_exec_ldB hw hexec hmem ha]
    refine ⟨w, hload, hwok, ?_⟩
    rw [hdigit (k := 0) (v := bcdHundreds (s.reg x)) (by decide) (by simp [bcdStores]),
      hdigit (k := 1) (v := bcdTens (s.reg x)) (by decide) (by simp [bcdStores]),
      hdigit (k := 2) (v := bcdOnes (s.reg x)) (by decide) (by simp [bcdStores]),
      toNat_bcdHundreds, toNat_bcdTens, toNat_bcdOnes]
    omega

/-! ### Writes of the index register (R171, R172, 43_display.md R194) -/

/-- An instruction that writes `I` alone and completes. -/
theorem sameExcept_setI (s : State) (a : Word) (e : StepResult) :
    SameExcept [.I, .stepResult] s ((s.setI a).setStepResult e) := by
  simp [sameExcept_iff]

/-- Settles O36: the value written to `I` is nnn, or the font address of Vx. -/
theorem indexLoads : Obligations.IndexLoads := by
  unfold Obligations.IndexLoads
  intro s nnn x
  exact ⟨⟨_, rfl, rfl, toNat_zextAddr nnn, sameExcept_setI s _ _⟩,
    ⟨_, rfl, rfl, toNat_fontAddr (s.reg x), sameExcept_setI s _ _⟩⟩

/-- The overflow flag of FX1E is 1 exactly where the exact sum is above 0xFFF. -/
theorem toNat_flagByte_indexOverflow (a : Word) (v : Byte) :
    (flagByte (indexOverflow (p := Config.hw) a v)).toNat = if 0xFFF < a.toNat + v.toNat then 1 else 0 := by
  simp [toNat_flagByte, indexOverflow, Nat.succ_le_iff]

/-- Settles O37: the wrapped sum goes to `I` and its overflow to VF. -/
theorem indexAdd : Obligations.IndexAdd := by
  unfold Obligations.IndexAdd
  intro s x
  refine ⟨_, rfl, rfl, toNat_wrapped_I (p := Config.hw) _, ?flag, regsSameExcept_setReg _ VF _, ?frame⟩
  case flag => rw [State.reg_setStepResult, State.reg_setFlag, if_pos rfl, toNat_flagByte_indexOverflow]
  case frame => simp [sameExcept_iff]

end Sys2Proof.Machine

/-! Proofs: the display (43_display.md): the clear, the draw pixel by pixel with its flag and its end, and two draws of one
sprite. -/

namespace Sys2Proof.Machine

/-! ### The clear (R191) -/

/-- Settles O43: CLS completes with the blank framebuffer and writes nothing else. -/
theorem clearDisplay : Obligations.ClearDisplay := by
  unfold Obligations.ClearDisplay
  intro s
  refine ⟨_, rfl, rfl, pixel_blankFb, ?frame⟩
  case frame => exact (instructionWrites .cls s _ rfl).1.mono (by simp [Instr.writes])

/-! ### The draw on the framebuffer (R190, R192) -/

section
variable (s : State) (x y : Reg) (n : Fin 16)

/-- The 1 bits of the rows that are drawn are the sprite's 1 bits of the rows at addresses up to 0xFFF. -/
theorem rowsBit_drawnRows_iff (row : Fin 32) (col : Fin 64) :
    rowsBit s (s.effAddr 0) (s.reg x).toNat (s.reg y).toNat (drawnRows (s.effAddr 0) (List.range n.val)) row col ↔
      SpriteBit s x y (min n.val (0x1000 - s.I.toNat)) row col := by
  simp only [rowsBit, rowBit, SpriteBit, mem_drawnRows, List.mem_range, Fin.ext_iff, val_spriteRow, val_spriteCol,
    State.effAddr, Nat.add_zero]
  constructor
  · rintro ⟨r, hr, hrow, b, hb, hbit, hcol⟩
    exact ⟨r, hr, b, hb, hbit, hrow, hcol⟩
  · rintro ⟨r, hr, b, hb, hbit, hrow, hcol⟩
    exact ⟨r, hr, hrow, b, hb, hbit, hcol⟩

theorem range_lt_16 : ∀ k ∈ List.range n.val, k < 16 :=
  fun _ hk => Nat.lt_trans (List.mem_range.mp hk) n.isLt

/-- The draw flips the pixels of the rows it reaches, and no other. -/
theorem pixel_drawSprite (row : Fin 32) (col : Fin 64) :
    (SpriteBit s x y (min n.val (0x1000 - s.I.toNat)) row col →
      pixel (drawSprite x y n s).1.1 row col = !pixel s.fb row col) ∧
    (¬ SpriteBit s x y (min n.val (0x1000 - s.I.toNat)) row col →
      pixel (drawSprite x y n s).1.1 row col = pixel s.fb row col) := by
  rw [← rowsBit_drawnRows_iff]
  exact drawRows_pixel (range_lt_16 n) List.nodup_range (s.fb, false) row col

/-- The collision detector sees exactly whether a pixel of the rows reached was 1. -/
theorem drawSprite_collided :
    (drawSprite x y n s).1.2 = true ↔
      ∃ row col, SpriteBit s x y (min n.val (0x1000 - s.I.toNat)) row col ∧ pixel s.fb row col = true := by
  simp only [← rowsBit_drawnRows_iff]
  exact (drawRows_collided (range_lt_16 n) List.nodup_range (s.fb, false)).trans (or_iff_right Bool.false_ne_true)

/-- The draw ends at the first row address above 0xFFF, if there is one. -/
theorem drawSprite_end :
    (drawSprite x y n s).2 =
      if n.val = 0 ∨ s.effAddr n.val ≤ 0x1000 then none else some (max s.I.toNat 0x1000) :=
  (drawRows_end ..).trans (find_row_above ..)

end

/-! ### DXYN (R192) -/

section
variable {s t : State} {x y : Reg} {n : Fin 16}

/-- A DXYN whose rows lie in memory leaves the draw's framebuffer and its collision in VF. -/
theorem exec_drw_of_fits (h : n.val = 0 ∨ s.effAddr n.val ≤ 0x1000) :
    exec (.drw x y n) s = done ((s.setFb (drawSprite x y n s).1.1).setFlag (drawSprite x y n s).1.2) := by
  have hend := drawSprite_end s x y n
  rw [if_pos h] at hend
  have hdraw : drawSprite x y n s = ((drawSprite x y n s).1, none) := Prod.ext rfl hend
  rw [← setFlag_setFlag _ false, exec, execDrw, hdraw]
  rfl

/-- A DXYN with a row above 0xFFF leaves the rows before it drawn and VF 0, and faults (60_exceptions.md R232, R233). -/
theorem exec_drw_of_past (h : ¬ (n.val = 0 ∨ s.effAddr n.val ≤ 0x1000)) :
    exec (.drw x y n) s = raise (.memoryBoundsError (max s.I.toNat 0x1000)) (.drw x y n)
      ((s.setFb (drawSprite x y n s).1.1).setFlag false) := by
  have hend := drawSprite_end s x y n
  rw [if_neg h] at hend
  have hdraw : drawSprite x y n s = ((drawSprite x y n s).1, some (max s.I.toNat 0x1000)) := Prod.ext rfl hend
  rw [exec, execDrw, hdraw]
  rfl

theorem fits_of_exec_drw (hexec : exec (.drw x y n) s = .next t) (hok : t.stepResult = .ok) :
    n.val = 0 ∨ s.effAddr n.val ≤ 0x1000 := by
  refine Classical.byContradiction fun h => ?_
  rw [exec_drw_of_past h, raise_next] at hexec
  subst hexec
  cases hok

theorem fb_of_exec_drw (hexec : exec (.drw x y n) s = .next t) : t.fb = (drawSprite x y n s).1.1 := by
  by_cases h : n.val = 0 ∨ s.effAddr n.val ≤ 0x1000
  · rw [exec_drw_of_fits h, done_next] at hexec
    subst hexec
    rfl
  · rw [exec_drw_of_past h, raise_next] at hexec
    subst hexec
    rfl

/-- Every row of a sprite in memory is drawn. -/
theorem min_rows_of_fits (h : n.val = 0 ∨ s.effAddr n.val ≤ 0x1000) : min n.val (0x1000 - s.I.toNat) = n.val := by
  rw [State.effAddr] at h
  omega

/-- A completed DXYN flips the pixels of its sprite, and no other. -/
theorem pixel_of_exec_drw (hexec : exec (.drw x y n) s = .next t) (hok : t.stepResult = .ok) (row : Fin 32)
    (col : Fin 64) :
    (SpriteBit s x y n.val row col → pixel t.fb row col = !pixel s.fb row col) ∧
    (¬ SpriteBit s x y n.val row col → pixel t.fb row col = pixel s.fb row col) := by
  have h := pixel_drawSprite s x y n row col
  rwa [min_rows_of_fits (fits_of_exec_drw hexec hok), ← fb_of_exec_drw hexec] at h

/-- A DXYN whose rows lie in memory completes, and VF says whether a pixel of the sprite was 1. -/
theorem completes_of_exec_drw (hexec : exec (.drw x y n) s = .next t) (h : n.val = 0 ∨ s.effAddr n.val ≤ 0x1000) :
    t.stepResult = .ok ∧
    ((∃ row col, SpriteBit s x y n.val row col ∧ pixel s.fb row col = true) → (t.reg VF).toNat = 1) ∧
    (¬ (∃ row col, SpriteBit s x y n.val row col ∧ pixel s.fb row col = true) → (t.reg VF).toNat = 0) := by
  have hcollided := drawSprite_collided s x y n
  rw [min_rows_of_fits h] at hcollided
  rw [exec_drw_of_fits h, done_next] at hexec
  subst hexec
  rw [State.reg_setStepResult, State.reg_setFlag, if_pos rfl, toNat_flagByte, ← hcollided]
  exact ⟨rfl, fun hc => if_pos hc, fun hc => if_neg hc⟩

/-- A DXYN with a row above 0xFFF faults at the first such address, with VF 0. -/
theorem faults_of_exec_drw (hexec : exec (.drw x y n) s = .next t) (h : ¬ (n.val = 0 ∨ s.effAddr n.val ≤ 0x1000)) :
    t.stepResult = .fault (.memoryBoundsError (max s.I.toNat 0x1000)) (s.pc - 2) (encode (.drw x y n)) ∧
      (t.reg VF).toNat = 0 := by
  rw [exec_drw_of_past h, raise_next] at hexec
  subst hexec
  refine ⟨rfl, ?_⟩
  rw [State.reg_setStepResult, State.reg_setFlag, if_pos rfl]
  rfl

end

/-- Settles O44: the pixels, the flag and the end of DXYN are those of the draw, and R38 gives the frame. -/
theorem drawSpriteFlipsItsPixels : Obligations.DrawSprite := by
  unfold Obligations.DrawSprite
  intro s x y n
  obtain ⟨t, hexec⟩ := exec_answers (.drw x y n) s
  obtain ⟨hframe, hregs⟩ := instructionWrites _ s t hexec
  refine ⟨t, hexec, completes_of_exec_drw hexec, fun hn hpast => ?fault, ?pixels, hregs,
    hframe.mono (by simp [Instr.writes])⟩
  case fault => exact faults_of_exec_drw hexec (not_or.mpr ⟨hn, Nat.not_le.mpr hpast⟩)
  case pixels =>
    rw [fb_of_exec_drw hexec]
    exact pixel_drawSprite s x y n

/-! ### Two draws of one sprite (R193 (a); log 14) -/

/-- The same bytes at the same place are the same sprite. -/
theorem spriteBit_congr {s u : State} {x y x' y' : Reg} {n : Nat} (hI : u.I = s.I) (hx : u.reg x' = s.reg x)
    (hy : u.reg y' = s.reg y) (hbytes : ∀ r, r < n → u.byteAt (s.I.toNat + r) = s.byteAt (s.I.toNat + r))
    (row : Fin 32) (col : Fin 64) : SpriteBit u x' y' n row col ↔ SpriteBit s x y n row col := by
  rw [SpriteBit, SpriteBit, hI, hx, hy]
  refine exists_congr fun r => and_congr_right fun hr => ?_
  rw [hbytes r hr]

/-- Settles O45: the second draw flips back what the first one flipped, and meets a 1 exactly where the first one met a 0. -/
theorem drawTwiceRestores : Obligations.DrawTwiceRestores := by
  unfold Obligations.DrawTwiceRestores
  intro s t u x y x' y' n hexec hok hfb hI hx hy hbytes
  have hsame := spriteBit_congr hI hx hy hbytes
  have hfirst := pixel_of_exec_drw hexec hok
  have hfits : n.val = 0 ∨ u.effAddr n.val ≤ 0x1000 := by
    rw [State.effAddr, hI]
    exact fits_of_exec_drw hexec hok
  obtain ⟨w, hsecond⟩ := exec_answers (.drw x' y' n) u
  obtain ⟨hwok, hflag⟩ := completes_of_exec_drw hsecond hfits
  refine ⟨w, hsecond, hwok, framebuffer_ext fun row col => ?restored, ?flag⟩
  case restored =>
    obtain ⟨hflip, hkeep⟩ := pixel_of_exec_drw hsecond hwok row col
    rw [hsame, hfb] at hflip hkeep
    by_cases hbit : SpriteBit s x y n.val row col
    · rw [hflip hbit, (hfirst row col).1 hbit, Bool.not_not]
    · rw [hkeep hbit, (hfirst row col).2 hbit]
  case flag =>
    have hmeets (row : Fin 32) (col : Fin 64) : SpriteBit u x' y' n.val row col ∧ pixel u.fb row col = true ↔
        SpriteBit s x y n.val row col ∧ pixel s.fb row col = false := by
      rw [hsame, hfb]
      refine and_congr_right fun hbit => ?_
      rw [(hfirst row col).1 hbit, Bool.not_eq_true']
    simpa only [hmeets] using hflag

/-- Refutes O46: the one pixel of the sprite is 1 before the first draw, which turns it off, so the second draw, made from the
state the first one left, meets no pixel that is 1. -/
theorem not_secondDrawAlwaysCollides : ¬ Obligations.SecondDrawAlwaysCollides := by
  unfold Obligations.SecondDrawAlwaysCollides
  intro h
  have hcollides := h (((State.reset.setMem [(0xFFF, 0x80)]).setI 0xFFF).setFb (setPixel blankFb 0 0 true)) _ _ _ 0 1 0 1 1
    rfl rfl rfl rfl rfl rfl (fun _ _ => rfl) rfl rfl ⟨0, by decide, by decide⟩
  exact absurd hcollides (by decide)

end Sys2Proof.Machine

/-! Proofs: the timers and the keypad (44_timer_key.md): the key test of the two key skips, the key wait, and the reads and
writes of the timers. -/

namespace Sys2Proof.Machine

/-! ### The key skips (R211-R213) -/

section
variable (s : State) {v : Byte}

/-- An index up to 0xF names its own key. -/
theorem keyDown_index (h : v.toNat < 16) : KeyDown s v ↔ s.keypad[v.toNat] = true := by
  constructor
  · rintro ⟨k, hk, hv | ⟨habove, -⟩⟩
    · obtain rfl : k = ⟨v.toNat, h⟩ := Fin.ext hv.symm
      exact hk
    · omega
  · exact fun hk => ⟨⟨v.toNat, h⟩, hk, .inl rfl⟩

/-- An index above 0xF names the key of its low nibble under the policy that masks it, and else no key. -/
theorem keyDown_above (h : 16 ≤ v.toNat) :
    KeyDown s v ↔ Config.keyIndexPolicy = .maskLowNibble ∧ s.keypad[lowNibbleKey v] = true := by
  constructor
  · rintro ⟨k, hk, hv | ⟨-, hmask, hv⟩⟩
    · omega
    · have hkey : lowNibbleKey v = k := Fin.ext hv
      exact ⟨hmask, hkey ▸ hk⟩
  · exact fun ⟨hmask, hk⟩ => ⟨lowNibbleKey v, hk, .inr ⟨h, hmask, rfl⟩⟩

/-- The model's key test is the one R211 words, under either policy. -/
theorem keyPressed_iff_keyDown (v : Byte) : keyPressed Config.keyIndexPolicy s.keypad v = true ↔ KeyDown s v := by
  by_cases h : v.toNat < 16
  · rw [keyPressed_index _ _ h, keyDown_index s h]
  · have habove : 16 ≤ v.toNat := Nat.le_of_not_lt h
    rw [keyPressed_above _ _ habove, keyDown_above s habove, Bool.and_eq_true, beq_iff_eq]

end

/-- Settles O27: the two skips, on the key test of Vx and on its opposite. -/
theorem skipsOnKeys : Obligations.SkipsOnKeys := by
  unfold Obligations.SkipsOnKeys
  intro s x
  have hdown := keyPressed_iff_keyDown s (s.reg x)
  have hup : keyPressed Config.keyIndexPolicy s.keypad (s.reg x) = false ↔ ¬ KeyDown s (s.reg x) := by
    rw [← hdown, Bool.not_eq_true]
  exact ⟨done_skipIf s hdown.mpr hup.mpr,
    done_skipIf s (fun h => congrArg not (hup.mpr h)) fun h => congrArg not (hdown.mpr h)⟩

/-! ### The timer transfers (R214, R216, R217) -/

/-- Settles O47: each transfer completes with the one field or register written, and R38 gives the frame of a timer write. -/
theorem timerTransfers : Obligations.TimerTransfers := by
  unfold Obligations.TimerTransfers
  intro s x
  refine ⟨⟨_, rfl, rfl, ?read, setReg_frame s x _ _⟩, ⟨_, rfl, rfl, rfl, ?delay⟩, ⟨_, rfl, rfl, rfl, ?sound⟩⟩
  case read => exact s.reg_setReg_same x s.dt
  case delay => exact (instructionWrites (.ldDtVx x) s _ rfl).1.mono (by simp [Instr.writes])
  case sound => exact (instructionWrites (.ldStVx x) s _ rfl).1.mono (by simp [Instr.writes])

/-! ### The key wait (R215) -/

section
variable {s : State}

/-- FX0A with a key pressed stores the lowest one. -/
theorem exec_ldVxK_pressed {k : Key} (hk : s.keypad[k] = true) (hlow : ∀ j : Key, j < k → s.keypad[j] = false) (x : Reg) :
    exec (.ldVxK x) s = done (s.setReg x (BitVec.ofNat 8 k.val)) := by
  have hsome : lowestPressed s.keypad = some k := lowestPressed_some.mpr ⟨hk, hlow⟩
  rw [exec, execLdVxK, hsome]

/-- FX0A with no key pressed moves `pc` back. -/
theorem exec_ldVxK_unpressed (hup : ∀ k : Key, s.keypad[k] = false) (x : Reg) :
    exec (.ldVxK x) s = done (s.setPc (s.pc - 2)) := by
  have hnone : lowestPressed s.keypad = none := lowestPressed_none hup
  rw [exec, execLdVxK, hnone]

end

/-- Settles O48: the key wait by whether a key is pressed. -/
theorem keyWait : Obligations.KeyWait := by
  unfold Obligations.KeyWait
  intro s x
  constructor
  case left =>
    intro k hk hlow
    refine ⟨_, exec_ldVxK_pressed hk hlow x, rfl, ?stored, setReg_frame s x _ _⟩
    case stored =>
      rw [State.reg_setStepResult, State.reg_setReg_same, BitVec.toNat_ofNat]
      omega
  case right =>
    intro hup
    exact ⟨_, exec_ldVxK_unpressed hup x, rfl, rfl, sameExcept_setPc s _ _⟩

end Sys2Proof.Machine

/-! Proofs: exceptions (60_exceptions.md): which instruction reports which fault, that every step answers a next state, and the
host's TICK, SET_KEY and `sound_active`. -/

namespace Sys2Proof.Machine

/-! ### Which instruction reports which fault (R231, R232) -/

/-- The instructions that read or write memory beside their fetch, and so can pass its end. -/
def AccessesMemory (i : Instr) : Prop := (∃ x y n, i = .drw x y n) ∨ ∃ x, i = .ldB x ∨ i = .stRegs x ∨ i = .ldRegs x

section
variable {s t : State}

theorem stepResult_of_done {u : State} (h : done u = .next t) : t.stepResult = .ok := by
  cases h
  rfl

/-- FX0A completes, whether a key is pressed or not (44_timer_key.md R215). -/
theorem stepResult_of_exec_ldVxK {x : Reg} (hexec : exec (.ldVxK x) s = .next t) : t.stepResult = .ok := by
  rw [exec, execLdVxK] at hexec
  split at hexec
  · exact stepResult_of_done hexec
  · exact stepResult_of_done hexec

/-- RET that does not complete met an empty stack (40_control.md R101). -/
theorem fault_of_exec_ret (hexec : exec .ret s = .next t) (hne : t.stepResult ≠ .ok) :
    t.stepResult = .fault .stackUnderflow (s.pc - 2) (encode .ret) := by
  rcases List.eq_nil_or_concat s.stack with hstack | ⟨l, a, hstack⟩
  · cases (execRet_nil hstack).symm.trans hexec
    rfl
  · rw [List.concat_eq_append] at hstack
    cases (execRet_concat hstack).symm.trans hexec
    exact absurd rfl hne

/-- CALL that does not complete met a full stack (R103). -/
theorem fault_of_exec_call {nnn : Addr} (hexec : exec (.call nnn) s = .next t) (hne : t.stepResult ≠ .ok) :
    t.stepResult = .fault .stackOverflow (s.pc - 2) (encode (.call nnn)) := by
  rcases Nat.lt_or_ge s.stack.length 16 with hroom | hfull
  · cases (execCall_fits hroom nnn).symm.trans hexec
    exact absurd rfl hne
  · cases (execCall_full hfull nnn).symm.trans hexec
    rfl

/-- A fault at the first address from `I` on that is past the memory is at an address above 0xFFF. -/
theorem above_firstPast (a : Nat) : 0xFFF < max a 0x1000 := Nat.lt_of_lt_of_le (by decide) (Nat.le_max_right ..)

/-- A transfer that does not complete passed the end of memory (42_index_memory.md R170). -/
theorem fault_of_endsAtMemSize {i : Instr} {k : Nat} (h : EndsAtMemSize i (k + 1) s) (hexec : exec i s = .next t)
    (hne : t.stepResult ≠ .ok) :
    t.stepResult = .fault (.memoryBoundsError (max s.I.toNat 0x1000)) (s.pc - 2) (encode i) := by
  obtain ⟨hok, hfault⟩ := stepResult_of_endsAtMemSize h hexec
  exact hfault (Nat.lt_of_not_le fun hfits => hne (hok hfits))

/-- An access that does not complete reports the first address from `I` on that is past the memory. -/
theorem fault_of_accessesMemory {i : Instr} (hi : AccessesMemory i) (hexec : exec i s = .next t)
    (hne : t.stepResult ≠ .ok) :
    t.stepResult = .fault (.memoryBoundsError (max s.I.toNat 0x1000)) (s.pc - 2) (encode i) := by
  obtain ⟨x, y, n, rfl⟩ | ⟨x, rfl | rfl | rfl⟩ := hi
  · exact (faults_of_exec_drw hexec fun hfits => hne (completes_of_exec_drw hexec hfits).1).1
  · exact fault_of_endsAtMemSize (ldB_endsAtMemSize x s) hexec hne
  · exact fault_of_endsAtMemSize (stRegs_endsAtMemSize x s) hexec hne
  · exact fault_of_endsAtMemSize (ldRegs_endsAtMemSize x s) hexec hne

end

/-- Settles O51: the instructions that access memory, the two that use the stack, and the others, which complete. -/
theorem faultKindsByInstruction : Obligations.FaultKindsByInstruction := by
  unfold Obligations.FaultKindsByInstruction
  intro i s t hexec hne
  by_cases hi : AccessesMemory i
  · exact ⟨_, fault_of_accessesMemory hi hexec hne, .inr (.inr ⟨_, rfl, above_firstPast _, hi⟩)⟩
  · cases i
    case ret => exact ⟨_, fault_of_exec_ret hexec hne, .inl ⟨rfl, rfl⟩⟩
    case call nnn => exact ⟨_, fault_of_exec_call hexec hne, .inr (.inl ⟨rfl, nnn, rfl⟩)⟩
    case ldVxK => exact absurd (stepResult_of_exec_ldVxK hexec) hne
    case drw | ldB | stRegs | ldRegs => simp [AccessesMemory] at hi
    all_goals exact absurd (stepResult_of_done hexec) hne

/-! ### The block never stops (R234) -/

/-- Settles O10: a step is an operation, and every operation answers. -/
theorem everyStepAnswersNext : Obligations.EveryStepAnswersNext := by
  unfold Obligations.EveryStepAnswersNext
  intro s
  cases hp : s.pending with
  | nil =>
    rw [step, performNext_nil hp]
    exact opStep_answers ..
  | cons op rest =>
    rw [step, performNext_cons hp]
    exact perform_answers ..

/-! ### TICK, SET_KEY and the sound output (R243, R245, R248) -/

/-- A timer stops at 0, where the subtraction of natural numbers does. -/
theorem toNat_tickTimer (b : Byte) : (tickTimer b).toNat = b.toNat - 1 := by
  rw [tickTimer]
  split
  case isTrue h => rw [h]; rfl
  case isFalse h => bv_omega

/-- Settles O19: the two timers by what one of them does under TICK. -/
theorem tickDecrementsTimers : Obligations.TickDecrementsTimers := by
  unfold Obligations.TickDecrementsTimers
  intro s rest hp
  refine ⟨_, performNext_cons hp, toNat_tickTimer s.dt, toNat_tickTimer s.st, rfl, ?frame⟩
  case frame => simp [sameExcept_iff, opTick]

/-- Settles O20: the key vector with one entry set. -/
theorem setKeyWritesOneKey : Obligations.SetKeyWritesOneKey := by
  unfold Obligations.SetKeyWritesOneKey
  intro s k pressed rest hp
  refine ⟨_, performNext_cons hp, ?written, fun j hj => ?others, rfl, ?frame⟩
  case written => exact Vector.getElem_set_self _
  case others => exact Vector.getElem_set_ne k.isLt j.isLt fun h => hj (Fin.ext h.symm)
  case frame => simp [sameExcept_iff, opSetKey]

/-- Settles O21: ST is not zero exactly when its value is not. -/
theorem soundActiveOutput : Obligations.SoundActiveOutput := by
  unfold Obligations.SoundActiveOutput
  intro s
  rw [soundActive, bne_iff_ne, ne_eq, ne_eq, ← BitVec.toNat_inj]
  rfl

end Sys2Proof.Machine

/-! Proofs: reset and loading (70_reset_and_hazards.md): RESET from any state, and LOAD byte by byte with its frame. -/

namespace Sys2Proof.Machine

/-! ### RESET (R260) -/

/-- Settles O17: RESET leaves the state after reset but for the model's own fields, which neither R37 nor the invariant is about. -/
theorem resetOperation : Obligations.ResetOperation := by
  unfold Obligations.ResetOperation
  intro s rest hp
  exact ⟨_, performNext_cons hp, resetState, resetMeetsInvariant, rfl⟩

/-! ### LOAD (R265) -/

section
variable {rom : List Byte} (s : State)

/-- An image that fits lies in memory from 0x200 on. -/
theorem byteAt_opLoad_image (hw : s.mem.wf = true) (hfits : rom.length ≤ 3584) {k : Nat} (hk : k < rom.length) :
    (opLoad rom s).byteAt (0x200 + k) = rom[k] := by
  rw [opLoad_fits hfits]
  exact Memory.read_writeBytes_inside (by omega) hw hk

/-- LOAD of an image that fits writes no byte outside the image. -/
theorem bytesSameExcept_opLoad (hfits : rom.length ≤ 3584) :
    BytesSameExcept (fun a => 0x200 ≤ a ∧ a < 0x200 + rom.length) s (opLoad rom s) := by
  intro a ha
  rw [opLoad_fits hfits]
  exact Memory.read_writeBytes_outside rom (by omega) s.mem

end

/-- Settles O18: by whether the image fits; LOAD then writes it, or nothing but its result. -/
theorem loadWritesImage : Obligations.LoadWritesImage := by
  unfold Obligations.LoadWritesImage
  intro s rom rest hw hp
  refine ⟨opLoad rom (s.setPending rest), performNext_cons hp, ?queue, fun hfits => ?image, fun hlong => ?tooLong⟩
  case queue => rw [opLoad_setPending]; rfl
  case image =>
    refine ⟨(opLoad_ok_iff ..).mpr ?room, ?frame, fun k hk => byteAt_opLoad_image (s.setPending rest) hw hfits hk,
      bytesSameExcept_opLoad (s.setPending rest) hfits⟩
    case room => rw [Config.hw_programBase, Config.hw_memSize]; omega
    case frame => simp [sameExcept_iff, opLoad_fits hfits]
  case tooLong =>
    rw [opLoad_tooLong hlong]
    exact ⟨rfl, by simp [sameExcept_iff]⟩

end Sys2Proof.Machine
